-- ==== Sys2Proof/Word.lean ====
section
/-! DEFINITION. The value types of the core: bytes, words, the key, the block and the legal cursor values
(spec/00_scope.md R9, R10, R11). -/

namespace Sys2Proof

/-- A byte is 8 bits (R11). -/
abbrev Byte := BitVec 8

/-- A word is 16 bits (R11). -/
abbrev Word := BitVec 16

/-- The 80-bit key: ten bytes, `K[j]` at index j (R21, R56). -/
abbrev Key := Vector Byte 10

/-- The eight bytes of a block on the port: D[0..7] going in, O[0..7] coming out (R54, R55). -/
abbrev BlockBytes := Vector Byte 8

/-- A legal value of the key-byte cursor, 0..9 (R25). -/
abbrev Cursor := Fin 10

/-- The four cipher-state words w1 (most significant) to w4 (R23). -/
structure Block where
  w1 : Word
  w2 : Word
  w3 : Word
  w4 : Word
  deriving DecidableEq, Repr

/-- The direction of an operation: DIR = 0 is encrypt, DIR = 1 is decrypt (R26). -/
inductive Direction where
  | encrypt
  | decrypt
  deriving DecidableEq, Repr

end Sys2Proof
end

