-- ==== Sys2Proof/Config.lean ====
section
/-! DEFINITION. The parameters of the core (spec/00_scope.md R9, R10). Nothing is left to an implementation but
`HOST_TRANSPORT` (R8), which the spec does not model and no definition here depends on (notes/assumptions/15.md). -/

namespace Sys2Proof.Config

/-- `KEY_BYTES` (R9): a SETKEY carries exactly this many data bytes. -/
abbrev keyBytes : Nat := 10

/-- `BLOCK_BYTES` (R9): an ENCRYPT or DECRYPT carries exactly this many data bytes. -/
abbrev blockBytes : Nat := 8

/-- `ROUNDS` (R9). -/
abbrev rounds : Nat := 32

/-- `LEN_WIDTH` is 8 bits (R10): a command carries at most this many data bytes. -/
abbrev maxDataBytes : Nat := 255

/-- `CURSOR_MODULUS` (R9). -/
abbrev cursorModulus : Nat := 10

/-- `CUR_ENC_START` (R10, R175). -/
abbrev cursorEncStart : Cursor := 0

/-- `CUR_DEC_START` (R10, R175). -/
abbrev cursorDecStart : Cursor := 8

end Sys2Proof.Config
end

