-- ==== Sys2Proof/Syntax.lean ====
section
/-! DEFINITION. The instructions: one constructor per row of spec/opcode_table.json, and the forms in which they reach
the core (spec/30_encoding.md R70 to R75). -/

namespace Sys2Proof

/-- The instructions of spec/opcode_table.json, row by row. A host command carries its LEN data bytes D[0..LEN-1]; LEN is
the number of them (R71). A reserved row carries the low bits of OP that the row leaves free. -/
inductive Instr where
  /-- OP 0x01 (R172). -/
  | setkey (d : List Byte)
  /-- OP 0x02 (R173). -/
  | encrypt (d : List Byte)
  /-- OP 0x03 (R177). -/
  | decrypt (d : List Byte)
  /-- OP 0x00, reserved (R179). -/
  | reserved00 (d : List Byte)
  /-- OP 0x04..0x07, reserved (R179). -/
  | reserved04 (lo : BitVec 2) (d : List Byte)
  /-- OP 0x08..0x0F, reserved (R179). -/
  | reserved08 (lo : BitVec 3) (d : List Byte)
  /-- OP 0x10..0x1F, reserved (R179). -/
  | reserved10 (lo : BitVec 4) (d : List Byte)
  /-- OP 0x20..0x3F, reserved (R179). -/
  | reserved20 (lo : BitVec 5) (d : List Byte)
  /-- OP 0x40..0x7F, reserved (R179). -/
  | reserved40 (lo : BitVec 6) (d : List Byte)
  /-- OP 0x80..0xFF, reserved (R179). -/
  | reserved80 (lo : BitVec 7) (d : List Byte)
  /-- MOP 0b00 (R140). -/
  | ruleA
  /-- MOP 0b01 (R141). -/
  | ruleB
  /-- MOP 0b10 (R142). -/
  | ruleAInv
  /-- MOP 0b11 (R143). -/
  | ruleBInv
  /-- GD 0, with its operands w and c (R120). -/
  | g (w : Word) (c : BitVec 4)
  /-- GD 1, with its operands w and c (R121). -/
  | gInv (w : Word) (c : BitVec 4)
  /-- The ROM read at address a (R100). -/
  | romRead (a : Byte)
  /-- The port operation READ_SR (R180). -/
  | readSr
  /-- The port operation RESET (R230). -/
  | reset
  deriving DecidableEq, Repr

/-- Format `HOSTCMD` (R71): the command word with the data bytes delivered with it. -/
structure HostCmd where
  cmd  : BitVec 16
  data : List Byte
  deriving DecidableEq, Repr

/-- Format `PORT` (R73): a port operation has no command word. -/
inductive PortOp where
  | readSr
  | reset
  deriving DecidableEq, Repr

/-- Formats `GOP` and `ROMRD` (R75): the select of the G unit with the operands at its inputs, and a ROM address. -/
inductive UnitOp where
  | gOp (gd : BitVec 1) (w : Word) (c : BitVec 4)
  | romRd (a : Byte)
  deriving DecidableEq, Repr

/-- An instruction as the core meets it, format by format (R70). -/
inductive Encoded where
  | hostCmd (c : HostCmd)
  | port (p : PortOp)
  /-- Format `ROUNDOP` (R74). -/
  | roundOp (mop : BitVec 2)
  | unitOp (u : UnitOp)
  deriving DecidableEq, Repr

/-- Why a decoder turns an encoded form away. -/
inductive DecodeError where
  /-- LEN is not the number of data bytes delivered, which R71 says cannot happen. -/
  | lengthDisagrees
  /-- The cursor operand of a G operation is not in 0..9 (R120, R121). -/
  | cursorOutOfRange
  deriving DecidableEq, Repr

end Sys2Proof
end

