-- ==== Sys2Proof/WellFormed.lean ====
section
/-! DEFINITION. The checks an instruction passes before it has an encoding: a command carries 0..255 data bytes
(spec/30_encoding.md R71), and a G operation's cursor operand is in 0..9 (spec/41_gperm.md R120, R121). -/

namespace Sys2Proof

/-- LEN is 8 bits wide, so a command carries at most 255 data bytes (R71, R10). -/
def dataFits (d : List Byte) : Bool := decide (d.length ≤ Config.maxDataBytes)

/-- The cursor operand is a legal cursor value (R25, R120, R121). -/
def cursorLegal (c : BitVec 4) : Bool := decide (c.toNat < Config.cursorModulus)

/-- The well-formed instructions: those an encoding exists for. Every LEN from 0 to 255 is well formed, also one the
command then answers with a size error (R81). -/
def Instr.wellFormed : Instr → Bool
  | .setkey d => dataFits d
  | .encrypt d => dataFits d
  | .decrypt d => dataFits d
  | .reserved00 d => dataFits d
  | .reserved04 _ d => dataFits d
  | .reserved08 _ d => dataFits d
  | .reserved10 _ d => dataFits d
  | .reserved20 _ d => dataFits d
  | .reserved40 _ d => dataFits d
  | .reserved80 _ d => dataFits d
  | .ruleA => true
  | .ruleB => true
  | .ruleAInv => true
  | .ruleBInv => true
  | .g _ c => cursorLegal c
  | .gInv _ c => cursorLegal c
  | .romRead _ => true
  | .readSr => true
  | .reset => true

end Sys2Proof
end

