-- ==== Sys2Proof/Decode.lean ====
section
/-! DEFINITION. The decoder, total on every encoded form and rejecting by name, and after it the encoder, both written
from spec/30_encoding.md R71 to R76 and spec/opcode_table.json. -/

namespace Sys2Proof

/-- `a ‖ b` = `(a << 8) | b`: a in the high bits (R11). -/
def byteConcat (hi lo : Byte) : Word := (hi.setWidth 16 <<< 8) ||| lo.setWidth 16

/-- `CMD[15:8]`, the number of data bytes (R71). -/
def HostCmd.len (c : HostCmd) : Byte := c.cmd.extractLsb' 8 8

/-- `CMD[7:0]`, the operation (R71). -/
def HostCmd.op (c : HostCmd) : Byte := c.cmd.extractLsb' 0 8

/-- The transport delivers exactly LEN data bytes (R71). -/
def HostCmd.agrees (c : HostCmd) : Bool := decide (c.data.length = c.len.toNat)

/-- Command decode looks at OP alone (R76). The reserved rows follow the table's match and mask. -/
def decodeOp (op : Byte) (d : List Byte) : Instr :=
  if op = 0x01#8 then .setkey d
  else if op = 0x02#8 then .encrypt d
  else if op = 0x03#8 then .decrypt d
  else if op = 0x00#8 then .reserved00 d
  else if op &&& 0xFC#8 = 0x04#8 then .reserved04 (op.extractLsb' 0 2) d
  else if op &&& 0xF8#8 = 0x08#8 then .reserved08 (op.extractLsb' 0 3) d
  else if op &&& 0xF0#8 = 0x10#8 then .reserved10 (op.extractLsb' 0 4) d
  else if op &&& 0xE0#8 = 0x20#8 then .reserved20 (op.extractLsb' 0 5) d
  else if op &&& 0xC0#8 = 0x40#8 then .reserved40 (op.extractLsb' 0 6) d
  else .reserved80 (op.extractLsb' 0 7) d

/-- A HOSTCMD decodes when LEN and the delivered bytes agree (R71), by OP alone (R76, R78). -/
def decodeHostCmd (c : HostCmd) : Except DecodeError Instr :=
  if c.agrees then .ok (decodeOp c.op c.data) else .error .lengthDisagrees

/-- The ROUNDOP map: all four values are used (R74). -/
def decodeRoundOp (mop : BitVec 2) : Instr :=
  if mop = 0b00#2 then .ruleA
  else if mop = 0b01#2 then .ruleB
  else if mop = 0b10#2 then .ruleAInv
  else .ruleBInv

/-- GOP by its select, ROMRD with every address valid (R75). -/
def decodeUnitOp : UnitOp → Except DecodeError Instr
  | .gOp gd w c =>
    if cursorLegal c then .ok (if gd = 0#1 then .g w c else .gInv w c) else .error .cursorOutOfRange
  | .romRd a => .ok (.romRead a)

/-- The decoder. A port operation is its own instruction and passes no command decode (R73). -/
def decode : Encoded → Except DecodeError Instr
  | .hostCmd c => decodeHostCmd c
  | .port .readSr => .ok .readSr
  | .port .reset => .ok .reset
  | .roundOp mop => .ok (decodeRoundOp mop)
  | .unitOp u => decodeUnitOp u

/-- `CMD = (n << 8) | OP` with n the number of data bytes (R81). -/
def encodeCmd (op : Byte) (d : List Byte) : Encoded :=
  .hostCmd { cmd := byteConcat (BitVec.ofNat 8 d.length) op, data := d }

/-- The encoder, from the same tables. A reserved row's OP is its fixed high bits and the free low bits. -/
def encode : Instr → Encoded
  | .setkey d => encodeCmd 0x01#8 d
  | .encrypt d => encodeCmd 0x02#8 d
  | .decrypt d => encodeCmd 0x03#8 d
  | .reserved00 d => encodeCmd 0x00#8 d
  | .reserved04 lo d => encodeCmd (0b000001#6 ++ lo) d
  | .reserved08 lo d => encodeCmd (0b00001#5 ++ lo) d
  | .reserved10 lo d => encodeCmd (0b0001#4 ++ lo) d
  | .reserved20 lo d => encodeCmd (0b001#3 ++ lo) d
  | .reserved40 lo d => encodeCmd (0b01#2 ++ lo) d
  | .reserved80 lo d => encodeCmd (0b1#1 ++ lo) d
  | .ruleA => .roundOp 0b00#2
  | .ruleB => .roundOp 0b01#2
  | .ruleAInv => .roundOp 0b10#2
  | .ruleBInv => .roundOp 0b11#2
  | .g w c => .unitOp (.gOp 0#1 w c)
  | .gInv w c => .unitOp (.gOp 1#1 w c)
  | .romRead a => .unitOp (.romRd a)
  | .readSr => .port .readSr
  | .reset => .port .reset

/-- The encoded form a word of spec/opcode_table.json stands for, by its number of bits. A 16-bit word is a HOSTCMD whose
data bytes are zeros. The table's internal selectors are separate spaces whose words overlap (R74, R75): in a byte, the
values 0..3 are read as ROUNDOP and the others as ROMRD; a word of exactly 2 bits is a ROUNDOP and one of exactly 1 bit a
GOP with zero operands. DESIGN CHOICE, notes/assumptions/8.md. -/
def encodedOfTableWord (nbits w : Nat) : Option Encoded :=
  if nbits = 16 then
    some (.hostCmd { cmd := BitVec.ofNat 16 w, data := List.replicate ((w / 256) % 256) 0#8 })
  else if nbits = 8 then
    if w < 4 then some (.roundOp (BitVec.ofNat 2 w)) else some (.unitOp (.romRd (BitVec.ofNat 8 w)))
  else if nbits = 2 then some (.roundOp (BitVec.ofNat 2 w))
  else if nbits = 1 then some (.unitOp (.gOp (BitVec.ofNat 1 w) 0#16 0#4))
  else none

/-- What the decoder reads from a word numbered as spec/opcode_table.json numbers it. -/
def decodeTableWord (nbits w : Nat) : Option Instr :=
  match encodedOfTableWord nbits w with
  | some e => (decode e).toOption
  | none => none

end Sys2Proof
end

