-- ==== Sys2Proof/Machine/State.lean ====
section
/-! DEFINITION. The state of the core as plain data (spec/10_state.md R20), the reasons a step can stop, and the state
after reset (spec/70_reset_and_hazards.md R230, R232). -/

namespace Sys2Proof.Machine

/-- The F-table ROM, held as the cells that differ from the published table of R101, addresses strictly rising. Nothing
writes it (R12, R105), so no cell is listed at reset and none ever becomes listed. -/
abbrev Memory := List Host.Cell

/-- Format `RSP` (R72): the status byte, and the result bytes O (eight of them or none). -/
structure Response where
  st : Byte
  o  : List Byte
  deriving DecidableEq, Repr

/-- What the port delivers to the host (R170, R216): a response, or the value of SR. -/
inductive PortOut where
  | response (r : Response)
  | sr (v : Byte)
  deriving DecidableEq, Repr

/-- What a unit operation that was issued by itself returned: (w', c') of G or of its inverse, or a byte of the ROM. The
model's own record (notes/assumptions/7.md). -/
inductive UnitOut where
  | word (w : Word) (c : BitVec 4)
  | byte (b : Byte)
  deriving DecidableEq, Repr

/-- What happens next (notes/assumptions/4.md): the core takes one sequencer step, the host submits a command, the host
performs a port operation, or a unit operation is issued by itself (notes/assumptions/7.md). -/
inductive Event where
  | core
  | submit (c : HostCmd)
  | port (p : PortOp)
  | unitOp (u : UnitOp)
  deriving DecidableEq, Repr

/-- The state of the core (R20), the pending command (R170), and three fields of the model's own: what happens next, what
the host has been given, and what the last unit operation returned. -/
structure State where
  /-- `K[0..9]` (R21). -/
  key     : Key
  /-- `KV` (R22). -/
  kv      : Bool
  /-- `W[1..4]` (R23). -/
  w       : Block
  /-- `RC` (R24). -/
  rc      : BitVec 6
  /-- `CUR` (R25). -/
  cur     : BitVec 4
  /-- `DIR` (R26). -/
  dir     : Direction
  /-- `BUSY` (R27). -/
  busy    : Bool
  /-- `FROM[0..255]` (R31). -/
  rom     : Memory
  /-- The pending command, at most one (R170). -/
  pending : Option HostCmd
  /-- The model's own: what happens next, the first event first. When it is empty the core moves. -/
  sched   : List Event
  /-- The model's own: everything delivered to the host, oldest first. -/
  outbox  : List PortOut
  /-- The model's own: what the last unit operation issued by itself returned. -/
  unitOut : Option UnitOut
  deriving DecidableEq, Repr

/-- Why the machine stops. Each reason is one the spec asks a model to stop on; no host can reach any of them. -/
inductive Fault where
  /-- A round rule read W, RC or CUR while BUSY = 0: a fault by R35, I4 and D26. Safe: they hold no value there. -/
  | operationStateHoldsNoValue
  /-- A round rule read RC with a value of 0 or 33..63 (I12). Safe: unreachable while BUSY = 1. -/
  | roundIndexOutOfRange
  /-- G, its inverse or a round rule was given a cursor of 10..15 (I11). Safe: unreachable. -/
  | cursorOutOfRange
  deriving DecidableEq, Repr

/-- Why a step has no meaning. -/
inductive Refusal where
  /-- An arm of exec that has no meaning yet. Safe: the machine stops. -/
  | notModelled (mnemonic : String)
  /-- A step met an encoded form the decoder turns away: a command whose LEN and delivered bytes disagree (R71: the
  transport never does that), or a unit operation whose cursor is not in 0..9. Safe: the machine stops. -/
  | undecodable (why : DecodeError)
  deriving DecidableEq, Repr

/-- The machine right after reset (R230, R232): BUSY = 0, KV = 0, nothing pending, the ROM as it always is. The spec gives
K, W, RC, CUR and DIR no value; the zeros are the model's (DESIGN CHOICE, notes/assumptions/1.md), and no
command's response depends on them. -/
def State.reset : State where
  key     := Vector.replicate 10 0#8
  kv      := false
  w       := ⟨0#16, 0#16, 0#16, 0#16⟩
  rc      := 0#6
  cur     := 0#4
  dir     := .encrypt
  busy    := false
  rom     := []
  pending := none
  sched   := []
  outbox  := []
  unitOut := none

end Sys2Proof.Machine
end

