-- ==== Sys2Proof/Machine/Ops.lean ====
section
/-! DEFINITION. The named operations over memory, words and registers that the meanings share: byte order
(spec/20_memory.md R54, R55), the ROM read (spec/40_ftable.md R100), responses and command errors (spec/30_encoding.md R72,
spec/60_exceptions.md R200, R203), and starting and ending an operation (spec/43_context.md R175, R178). -/

namespace Sys2Proof.Machine

/-! ### Bytes and words -/

/-- `w[15:8]` (R11). -/
def hiByte (w : Word) : Byte := w.extractLsb' 8 8

/-- `w[7:0]` (R11). -/
def loByte (w : Word) : Byte := w.extractLsb' 0 8

/-- `zext_16(r)` (R80, R144). -/
def zext16 (r : BitVec 6) : Word := r.setWidth 16

/-- Block unpacking, big-endian (R54). -/
def unpack (d : BlockBytes) : Block where
  w1 := byteConcat d[0] d[1]
  w2 := byteConcat d[2] d[3]
  w3 := byteConcat d[4] d[5]
  w4 := byteConcat d[6] d[7]

/-- Block packing, the same order (R55). -/
def pack (b : Block) : BlockBytes :=
  #v[hiByte b.w1, loByte b.w1, hiByte b.w2, loByte b.w2, hiByte b.w3, loByte b.w3, hiByte b.w4, loByte b.w4]

/-! ### The ROM -/

/-- `FROM(a)` (R100): the listed byte, or the published table's where none is listed (R101). -/
def Memory.read : Memory → Byte → Byte
  | [], a => fTable a
  | (k, v) :: m, a => if k = a.toNat then v else Memory.read m a

/-- The canonical form from address `lo` on: addresses below 256 (R51), strictly rising, and no entry equal to what an
unlisted address reads as. -/
def Memory.wfFrom : Nat → Memory → Bool
  | _, [] => true
  | lo, (k, v) :: m =>
    decide (lo ≤ k) && decide (k < 256) && decide (v ≠ fTable (BitVec.ofNat 8 k)) && Memory.wfFrom (k + 1) m

/-- The canonical form of a memory: equal contents are equal lists. -/
def Memory.wf (m : Memory) : Bool := Memory.wfFrom 0 m

/-! ### Responses and command errors -/

/-- The causes of a response (R200). -/
inductive Status where
  | ok
  | invalidKeySize
  | invalidBlockSize
  | noKey
  | illegalCommand
  deriving DecidableEq, Repr

/-- The status codes (R200). -/
def Status.code : Status → Byte
  | .ok => 0x00#8
  | .invalidKeySize => 0x01#8
  | .invalidBlockSize => 0x02#8
  | .noKey => 0x03#8
  | .illegalCommand => 0x04#8

/-- Format `RSP` on the port: the status byte, then the result bytes (R72). -/
def Response.bytes (r : Response) : List Byte := r.st :: r.o

/-- Deliver something to the host. -/
def State.deliver (s : State) (p : PortOut) : State := { s with outbox := s.outbox ++ [p] }

/-- Answer the command with a status and result bytes (R72). -/
def State.respond (s : State) (st : Status) (o : List Byte) : State := s.deliver (.response ⟨st.code, o⟩)

/-- A command error, the core's only kind of exception (R209): the response carries the code alone, and no state is
written (R200, R203). There is nothing to return from (R210). -/
def State.raiseError (s : State) (e : Status) : State := s.respond e []

/-! ### Operations -/

/-- The register image of a cursor value: CUR is 4 bits wide (R25). -/
def cursorBits (c : Cursor) : BitVec 4 := BitVec.ofNat 4 c.val

/-- The first round of an operation (R175). -/
def startRound : Direction → BitVec 6
  | .encrypt => 1#6
  | .decrypt => 32#6

/-- The cursor an operation starts with (R175). -/
def startCursor : Direction → Cursor
  | .encrypt => Config.cursorEncStart
  | .decrypt => Config.cursorDecStart

/-- Operation start, the rest of the ACCEPT step once its checks have passed (R175). -/
def State.startOperation (s : State) (dir : Direction) (d : BlockBytes) : State :=
  { s with w := unpack d, dir := dir, rc := startRound dir, cur := cursorBits (startCursor dir), busy := true }

/-- The ACCEPT checks of ENCRYPT and DECRYPT in their order, then the start (R174, R175, R176). -/
def State.acceptOperation (s : State) (dir : Direction) (d : List Byte) : State :=
  if s.kv = false then s.raiseError .noKey
  else if h : d.length = Config.blockBytes then s.startOperation dir ⟨d.toArray, h⟩
  else s.raiseError .invalidBlockSize

/-- The body of SETKEY (R172): all ten bytes at once, KV set, and a response with no result bytes. -/
def State.loadKey (s : State) (d : List Byte) : State :=
  if h : d.length = Config.keyBytes then
    ({ s with key := ⟨d.toArray, h⟩, kv := true } : State).respond .ok []
  else s.raiseError .invalidKeySize

/-- The state a RESET leaves (R230). The ROM is unchanged (R105); the schedule of what happens next and what the host
already has are not the core's, and stay (notes/assumptions/18.md). -/
def State.afterReset (s : State) : State :=
  { State.reset with rom := s.rom, sched := s.sched, outbox := s.outbox }

end Sys2Proof.Machine
end

