-- ==== Sys2Proof/Machine/Operands.lean ====
section
/-! DEFINITION. How operands are read: the cursor's walk (spec/41_gperm.md R120, R121, R123), the G-permutation and its
inverse, and the guarded reads of W, RC and CUR (spec/10_state.md R35, spec/93_implementation_defined.md I4, I11, I12;
notes/assumptions/2.md and 3.md). K is read as it stands (notes/assumptions/19.md). -/

namespace Sys2Proof.Machine

/-- `(c + 1) mod 10` (R120). -/
def cursorNext (c : Cursor) : Cursor := ⟨(c.val + 1) % 10, Nat.mod_lt _ (by decide)⟩

/-- `(c + 9) mod 10` (R121). -/
def cursorPrev (c : Cursor) : Cursor := ⟨(c.val + 9) % 10, Nat.mod_lt _ (by decide)⟩

/-- `G(w, c)`: four lookups, the cursor moving on after each (R120). -/
def gForward (rom : Memory) (k : Key) (w : Word) (c : Cursor) : Word × Cursor :=
  let g1 := hiByte w
  let g2 := loByte w
  let c1 := cursorNext c
  let c2 := cursorNext c1
  let c3 := cursorNext c2
  let g3 := rom.read (g2 ^^^ k.get c) ^^^ g1
  let g4 := rom.read (g3 ^^^ k.get c1) ^^^ g2
  let g5 := rom.read (g4 ^^^ k.get c2) ^^^ g3
  let g6 := rom.read (g5 ^^^ k.get c3) ^^^ g4
  (byteConcat g5 g6, cursorNext c3)

/-- The inverse of G: four lookups in the same table, the cursor moving back before each (R121). -/
def gInverse (rom : Memory) (k : Key) (w : Word) (c : Cursor) : Word × Cursor :=
  let g5 := hiByte w
  let g6 := loByte w
  let c1 := cursorPrev c
  let c2 := cursorPrev c1
  let c3 := cursorPrev c2
  let c4 := cursorPrev c3
  let g4 := rom.read (g5 ^^^ k.get c1) ^^^ g6
  let g3 := rom.read (g4 ^^^ k.get c2) ^^^ g5
  let g2 := rom.read (g3 ^^^ k.get c3) ^^^ g4
  let g1 := rom.read (g2 ^^^ k.get c4) ^^^ g3
  (byteConcat g1 g2, c4)

/-- A round counter value a round may use (R24, I12). -/
def roundLegal (r : BitVec 6) : Bool := decide (1 ≤ r.toNat) && decide (r.toNat ≤ Config.rounds)

/-- The operands of an operation of the G unit: K, which holds a value whatever KV is (R120, R121;
notes/assumptions/19.md), and a cursor in 0..9 (I11). -/
def withGOperands (s : State) (c : BitVec 4) (f : Key → Cursor → State) : Host.Outcome State Fault Refusal :=
  if h : c.toNat < 10 then .next (f s.key ⟨c.toNat, h⟩)
  else .fault .cursorOutOfRange

/-- The operands of a round rule: W, RC and CUR, read while BUSY = 1 only (R35, I4, D26), RC in 1..32
(I12), and those of G. -/
def withRoundOperands (s : State) (f : Key → BitVec 6 → Block → Cursor → State) :
    Host.Outcome State Fault Refusal :=
  if s.busy = false then .fault .operationStateHoldsNoValue
  else if roundLegal s.rc = false then .fault .roundIndexOutOfRange
  else withGOperands s s.cur fun k c => f k s.rc s.w c

/-- DIR as a bit: 0 encrypt, 1 decrypt (R26). -/
def Direction.bit : Direction → BitVec 1
  | .encrypt => 0#1
  | .decrypt => 1#1

/-- `RB = (RC - 1)[3]` (R74). -/
def roundBit (r : BitVec 6) : BitVec 1 := (r - 1#6).extractLsb' 3 1

/-- `MOP = DIR ‖ RB` (R74, R145). -/
def roundSelect (dir : Direction) (r : BitVec 6) : BitVec 2 := Direction.bit dir ++ roundBit r

end Sys2Proof.Machine
end

