-- ==== Sys2Proof/Machine/Flags.lean ====
section
/-! DEFINITION. The core's flags are BUSY and KV alone (spec/10_state.md R30): the status view of them, and the rule by
which the last ROUND step clears BUSY (spec/42_round_engine.md R150). -/

namespace Sys2Proof.Machine

/-- `SR = zext_8(KV ‖ BUSY)` (R29, R180). -/
def State.srView (s : State) : Byte := (BitVec.ofBool s.kv ++ BitVec.ofBool s.busy).setWidth 8

/-- The round that ends an operation: 32 when encrypting, 1 when decrypting (R150). -/
def lastRound : Direction → BitVec 6
  | .encrypt => 32#6
  | .decrypt => 1#6

/-- The round after `r` in the operation's direction (R150). -/
def nextRound : Direction → BitVec 6 → BitVec 6
  | .encrypt, r => r + 1#6
  | .decrypt, r => r - 1#6

/-- The end of a ROUND step, after its rule: on the last round BUSY falls and the packed block is the response (R178);
otherwise RC moves on (R150). -/
def State.finishRound (s : State) : State :=
  if s.rc = lastRound s.dir then
    ({ s with busy := false } : State).respond .ok (pack s.w).toList
  else { s with rc := nextRound s.dir s.rc }

end Sys2Proof.Machine
end

