-- ==== Sys2Proof/Machine/Commands.lean ====
section
/-! DEFINITION. The host commands (spec/43_context.md R172 to R179): each is the body of the ACCEPT step that takes it.
Whether the step may run (BUSY = 0) is the sequencer's to say (R171, R181). -/

namespace Sys2Proof.Machine

/-- SETKEY (R172). -/
def execSetkey (d : List Byte) (s : State) : Host.Outcome State Fault Refusal := .next (s.loadKey d)

/-- ENCRYPT: the checks and the start; the 32 ROUND steps follow (R173, R174, R175). -/
def execEncrypt (d : List Byte) (s : State) : Host.Outcome State Fault Refusal :=
  .next (s.acceptOperation .encrypt d)

/-- DECRYPT: the checks and the start; the 32 ROUND steps follow (R177, R176, R175). -/
def execDecrypt (d : List Byte) (s : State) : Host.Outcome State Fault Refusal :=
  .next (s.acceptOperation .decrypt d)

/-- A reserved OP raises IllegalCommand and writes nothing, whatever LEN and D are (R77, R179). -/
def illegalCommand (s : State) : Host.Outcome State Fault Refusal := .next (s.raiseError .illegalCommand)

/-- OP 0x00 (R179). -/
def execReserved00 (s : State) : Host.Outcome State Fault Refusal := illegalCommand s

/-- OP 0x04..0x07 (R179). -/
def execReserved04 (s : State) : Host.Outcome State Fault Refusal := illegalCommand s

/-- OP 0x08..0x0F (R179). -/
def execReserved08 (s : State) : Host.Outcome State Fault Refusal := illegalCommand s

/-- OP 0x10..0x1F (R179). -/
def execReserved10 (s : State) : Host.Outcome State Fault Refusal := illegalCommand s

/-- OP 0x20..0x3F (R179). -/
def execReserved20 (s : State) : Host.Outcome State Fault Refusal := illegalCommand s

/-- OP 0x40..0x7F (R179). -/
def execReserved40 (s : State) : Host.Outcome State Fault Refusal := illegalCommand s

/-- OP 0x80..0xFF (R179). -/
def execReserved80 (s : State) : Host.Outcome State Fault Refusal := illegalCommand s

end Sys2Proof.Machine
end

