-- ==== Sys2Proof/Machine/Port.lean ====
section
/-! DEFINITION. The port operations READ_SR (spec/43_context.md R180) and RESET (spec/70_reset_and_hazards.md R230), both
accepted whatever BUSY is (R73). -/

namespace Sys2Proof.Machine

/-- READ_SR: deliver SR; nothing is written, and a pending command stays as it is (R180). -/
def execReadSr (s : State) : Host.Outcome State Fault Refusal := .next (s.deliver (.sr s.srView))

/-- RESET (R230): a running operation is abandoned without a response (R231). -/
def execReset (s : State) : Host.Outcome State Fault Refusal := .next s.afterReset

end Sys2Proof.Machine
end

