-- ==== Sys2Proof/Machine/Rounds.lean ====
section
/-! DEFINITION. The four round rules (spec/42_round_engine.md R140 to R143) as functions of the words, the round index and
the cursor, and as instructions that write W and CUR. The Rule B wiring is the published one (C1, I2;
notes/assumptions/12.md). What a ROUND step does besides (RC, BUSY, the response) is `State.finishRound` (R150). -/

namespace Sys2Proof.Machine

/-- RULE_A (R140). -/
def ruleA (rom : Memory) (k : Key) (r : BitVec 6) (b : Block) (c : Cursor) : Block × Cursor :=
  let t := gForward rom k b.w1 c
  (⟨t.1 ^^^ b.w4 ^^^ zext16 r, t.1, b.w2, b.w3⟩, t.2)

/-- RULE_B (R141). -/
def ruleB (rom : Memory) (k : Key) (r : BitVec 6) (b : Block) (c : Cursor) : Block × Cursor :=
  let t := gForward rom k b.w1 c
  (⟨b.w4, t.1, b.w1 ^^^ b.w2 ^^^ zext16 r, b.w3⟩, t.2)

/-- RULE_A_INV (R142). -/
def ruleAInv (rom : Memory) (k : Key) (r : BitVec 6) (b : Block) (c : Cursor) : Block × Cursor :=
  let x := gInverse rom k b.w2 c
  (⟨x.1, b.w3, b.w4, b.w1 ^^^ b.w2 ^^^ zext16 r⟩, x.2)

/-- RULE_B_INV (R143). -/
def ruleBInv (rom : Memory) (k : Key) (r : BitVec 6) (b : Block) (c : Cursor) : Block × Cursor :=
  let x := gInverse rom k b.w2 c
  (⟨x.1, x.1 ^^^ b.w3 ^^^ zext16 r, b.w4, b.w1⟩, x.2)

/-- The writes of a round rule: W and CUR (R140 to R143). -/
def State.writeRound (s : State) (x : Block × Cursor) : State := { s with w := x.1, cur := cursorBits x.2 }

/-- RULE_A as an instruction (R140). -/
def execRuleA (s : State) : Host.Outcome State Fault Refusal :=
  withRoundOperands s fun k r b c => s.writeRound (ruleA s.rom k r b c)

/-- RULE_B as an instruction (R141). -/
def execRuleB (s : State) : Host.Outcome State Fault Refusal :=
  withRoundOperands s fun k r b c => s.writeRound (ruleB s.rom k r b c)

/-- RULE_A_INV as an instruction (R142). -/
def execRuleAInv (s : State) : Host.Outcome State Fault Refusal :=
  withRoundOperands s fun k r b c => s.writeRound (ruleAInv s.rom k r b c)

/-- RULE_B_INV as an instruction (R143). -/
def execRuleBInv (s : State) : Host.Outcome State Fault Refusal :=
  withRoundOperands s fun k r b c => s.writeRound (ruleBInv s.rom k r b c)

end Sys2Proof.Machine
end

