-- ==== Sys2Proof/Machine/Units.lean ====
section
/-! DEFINITION. The operations of the G unit and of the ROM as instructions of their own (spec/41_gperm.md R120, R121,
spec/40_ftable.md R100). None writes any of the spec's state; what each returns stands in the model's own field `unitOut`
(notes/assumptions/7.md). -/

namespace Sys2Proof.Machine

/-- Record what a unit operation returned. -/
def State.returnWord (s : State) (x : Word × Cursor) : State :=
  { s with unitOut := some (.word x.1 (cursorBits x.2)) }

/-- G (R120). -/
def execG (w : Word) (c : BitVec 4) (s : State) : Host.Outcome State Fault Refusal :=
  withGOperands s c fun k c => s.returnWord (gForward s.rom k w c)

/-- The inverse of G (R121). -/
def execGInv (w : Word) (c : BitVec 4) (s : State) : Host.Outcome State Fault Refusal :=
  withGOperands s c fun k c => s.returnWord (gInverse s.rom k w c)

/-- FROM: every address is valid, and the read has no side effect (R100, R62). -/
def execRomRead (a : Byte) (s : State) : Host.Outcome State Fault Refusal :=
  .next { s with unitOut := some (.byte (s.rom.read a)) }

end Sys2Proof.Machine
end

