-- ==== Sys2Proof/Machine/Dispatch.lean ====
section
/-! DEFINITION. The meaning of each instruction, one arm per constructor of Instr. -/

namespace Sys2Proof.Machine

def exec (i : Instr) (s : State) : Host.Outcome State Fault Refusal :=
  match i with
  | .setkey d => Sys2Proof.Machine.execSetkey d s
  | .encrypt d => Sys2Proof.Machine.execEncrypt d s
  | .decrypt d => Sys2Proof.Machine.execDecrypt d s
  | .reserved00 _ => Sys2Proof.Machine.execReserved00 s
  | .reserved04 _ _ => Sys2Proof.Machine.execReserved04 s
  | .reserved08 _ _ => Sys2Proof.Machine.execReserved08 s
  | .reserved10 _ _ => Sys2Proof.Machine.execReserved10 s
  | .reserved20 _ _ => Sys2Proof.Machine.execReserved20 s
  | .reserved40 _ _ => Sys2Proof.Machine.execReserved40 s
  | .reserved80 _ _ => Sys2Proof.Machine.execReserved80 s
  | .ruleA => Sys2Proof.Machine.execRuleA s
  | .ruleB => Sys2Proof.Machine.execRuleB s
  | .ruleAInv => Sys2Proof.Machine.execRuleAInv s
  | .ruleBInv => Sys2Proof.Machine.execRuleBInv s
  | .g w c => Sys2Proof.Machine.execG w c s
  | .gInv w c => Sys2Proof.Machine.execGInv w c s
  | .romRead a => Sys2Proof.Machine.execRomRead a s
  | .readSr => Sys2Proof.Machine.execReadSr s
  | .reset => Sys2Proof.Machine.execReset s

end Sys2Proof.Machine
end

