-- ==== Sys2Proof/Machine/Sequencer.lean ====
section
/-! DEFINITION. Who moves next, and what the step then runs: the host's operations (spec/43_context.md R170), the ACCEPT
step (R171), the ROUND step (spec/42_round_engine.md R150) and the command hold (R181). Also where an encoded instruction
is put so that the next step runs it. -/

namespace Sys2Proof.Machine

/-- What the next step does. -/
inductive Turn where
  /-- The host's command becomes pending (R170): the state after it. -/
  | submitted (t : State)
  /-- The core waits for a command (R27): the state after it. -/
  | idle (t : State)
  /-- The step runs this encoded instruction at this state. -/
  | run (e : Encoded) (t : State)
  deriving DecidableEq, Repr

/-- The core's own turn: a ROUND step while BUSY = 1 (R150), else the ACCEPT step if a command is pending, which consumes
it (R171), else nothing (R27). -/
def State.coreTurn (s : State) : Turn :=
  if s.busy then .run (.roundOp (roundSelect s.dir s.rc)) s
  else match s.pending with
    | some c => .run (.hostCmd c) { s with pending := none }
    | none => .idle s

/-- Who moves: the first event of `sched`, or the core where there is none. A command submitted while another is pending
waits at the port, and the core moves (R170, R181; notes/assumptions/5.md). Whatever the list holds behind a waiting
submission, a RESET or a READ_SR too, comes after it (DESIGN CHOICE, notes/assumptions/21.md). -/
def State.turn (s : State) : Turn :=
  match s.sched with
  | [] => s.coreTurn
  | .core :: es => ({ s with sched := es } : State).coreTurn
  | .port p :: es => .run (.port p) { s with sched := es }
  | .unitOp u :: es => .run (.unitOp u) { s with sched := es }
  | .submit c :: es =>
    match s.pending with
    | none => .submitted { s with pending := some c, sched := es }
    | some _ => s.coreTurn

/-- What a step adds after the instruction: a ROUND step ends with the sequencer's writes (R150). -/
def afterExec (e : Encoded) (o : Host.Outcome State Fault Refusal) : Host.Outcome State Fault Refusal :=
  match e, o with
  | .roundOp _, .next t => .next t.finishRound
  | _, o => o

/-- Decode and run. -/
def runEncoded (e : Encoded) (t : State) : Host.Outcome State Fault Refusal :=
  match decode e with
  | .ok i => afterExec e (exec i t)
  | .error why => .refused (.undecodable why)

/-- One step. -/
def stepTurn (s : State) : Host.Outcome State Fault Refusal :=
  match s.turn with
  | .submitted t => .next t
  | .idle t => .next t
  | .run e t => runEncoded e t

/-- A round in which the sequencer selects `mop`: its direction, a round of it, and the cursor before that round (R28,
R145). -/
def selectingRound (mop : BitVec 2) : Direction × BitVec 6 × BitVec 4 :=
  if mop = 0b00#2 then (.encrypt, 1#6, 0#4)
  else if mop = 0b01#2 then (.encrypt, 9#6, 2#4)
  else if mop = 0b10#2 then (.decrypt, 24#6, 6#4)
  else (.decrypt, 32#6, 8#4)

/-- The state with an encoded instruction put where the next step takes it from (notes/assumptions/8.md). A command is made
pending in an idle core; a ROUNDOP is selected by BUSY, DIR, RC and CUR, with KV = 1 since an operation runs only under a
key; a unit operation is issued by itself. -/
def State.place (s : State) (e : Encoded) : State :=
  match e with
  | .hostCmd c => { s with sched := .core :: s.sched, busy := false, pending := some c }
  | .port p => { s with sched := .port p :: s.sched }
  | .roundOp mop =>
    { s with sched := .core :: s.sched, busy := true, kv := true, dir := (selectingRound mop).1,
             rc := (selectingRound mop).2.1, cur := (selectingRound mop).2.2 }
  | .unitOp u => { s with sched := .unitOp u :: s.sched }

/-- The same for a word numbered as spec/opcode_table.json numbers it; a word of no row changes nothing. -/
def State.placeTableWord (s : State) (nbits w : Nat) : State :=
  match encodedOfTableWord nbits w with
  | some e => s.place e
  | none => s

end Sys2Proof.Machine
end

