-- ==== Sys2Proof/Machine/Step.lean ====
section
/-! DEFINITION. The step of the machine, and the placing of a table word before it. -/

namespace Sys2Proof.Machine

/-- One step: the next event of the schedule, or the core's own turn (R150, R170, R171). -/
def step (s : State) : Host.Outcome State Fault Refusal := stepTurn s

/-- `s` with the instruction of a table word stored where the next step takes it from. -/
def State.withFetchWord (s : State) (nbits w : Nat) : State := s.placeTableWord nbits w

end Sys2Proof.Machine
end

