-- ==== Sys2Proof/Machine/Assembler.lean ====
section
/-! DEFINITION. The assembler of spec/30_encoding.md R81 and R82: a line of text, the line it stands for, and the host's
operation it encodes. A line is a list of characters. Choices of detail: notes/assumptions/20.md. -/

namespace Sys2Proof.Machine

/-- The lines of R81. -/
inductive AsmLine where
  | setkey (bs : List Byte)
  | encrypt (bs : List Byte)
  | decrypt (bs : List Byte)
  | cmd (w : Word) (bs : List Byte)
  | readsr
  | reset
  deriving DecidableEq, Repr

/-- `CMD 0xWWWW b0 … b(n-1)`: the line is rejected unless WWWW[15:8] = n, with n at most 255 (R81). -/
def assembleCmd (w : Word) (bs : List Byte) : Option Event :=
  if bs.length ≤ 255 ∧ (HostCmd.mk w bs).agrees then some (.submit ⟨w, bs⟩) else none

/-- `CMD = (n << 8) | OP` (R81). -/
def cmdWord (op : Byte) (bs : List Byte) : Word := byteConcat (BitVec.ofNat 8 bs.length) op

/-- What a line encodes (R81). The three command mnemonics are spellings of `CMD` (R82). -/
def assembleLine : AsmLine → Option Event
  | .setkey bs => assembleCmd (cmdWord 0x01#8 bs) bs
  | .encrypt bs => assembleCmd (cmdWord 0x02#8 bs) bs
  | .decrypt bs => assembleCmd (cmdWord 0x03#8 bs) bs
  | .cmd w bs => assembleCmd w bs
  | .readsr => some (.port .readSr)
  | .reset => some (.port .reset)

/-- The value of a hexadecimal digit of either case. -/
def hexDigit (c : Char) : Option Nat :=
  if '0'.toNat ≤ c.toNat ∧ c.toNat ≤ '9'.toNat then some (c.toNat - '0'.toNat)
  else if 'a'.toNat ≤ c.toNat ∧ c.toNat ≤ 'f'.toNat then some (c.toNat - 'a'.toNat + 10)
  else if 'A'.toNat ≤ c.toNat ∧ c.toNat ≤ 'F'.toNat then some (c.toNat - 'A'.toNat + 10)
  else none

/-- A run of hexadecimal digits, most significant first. -/
def hexValue : Nat → List Char → Option Nat
  | acc, [] => some acc
  | acc, c :: cs =>
    match hexDigit c with
    | some d => hexValue (16 * acc + d) cs
    | none => none

/-- A byte operand: two hexadecimal digits with no mark before them (R81). -/
def parseByte (t : List Char) : Option Byte :=
  if t.length = 2 then (hexValue 0 t).map (BitVec.ofNat 8) else none

/-- A word operand: `0x` and four hexadecimal digits (R81). -/
def parseWord : List Char → Option Word
  | z :: x :: t =>
    if z = '0' ∧ (x = 'x' ∨ x = 'X') ∧ t.length = 4 then (hexValue 0 t).map (BitVec.ofNat 16) else none
  | _ => none

/-- The byte operands of a line; one that is no byte rejects the line. -/
def parseBytes : List (List Char) → Option (List Byte)
  | [] => some []
  | t :: ts =>
    match parseByte t, parseBytes ts with
    | some b, some bs => some (b :: bs)
    | _, _ => none

/-- An upper-case copy of a letter: the syntax is case-insensitive (R81). -/
def upper (c : Char) : Char :=
  if 'a'.toNat ≤ c.toNat ∧ c.toNat ≤ 'z'.toNat then Char.ofNat (c.toNat - 32) else c

/-- The line without its comment, which runs from `;` to the end (R81). -/
def dropComment : List Char → List Char
  | [] => []
  | c :: cs => if c = ';' then [] else c :: dropComment cs

/-- The words of a line, separated by spaces and tabs; the first argument is the word being read. -/
def splitWords : List Char → List Char → List (List Char)
  | [], [] => []
  | w, [] => [w]
  | w, c :: cs =>
    if c = ' ' ∨ c = '\t' then (if w = [] then splitWords [] cs else w :: splitWords [] cs)
    else splitWords (w ++ [c]) cs

/-- The line a list of words stands for: one mnemonic and its operands (R81). -/
def parseWords : List (List Char) → Option AsmLine
  | [] => none
  | m :: ts =>
    let m := m.map upper
    if m = ['S', 'E', 'T', 'K', 'E', 'Y'] then (parseBytes ts).map .setkey
    else if m = ['E', 'N', 'C', 'R', 'Y', 'P', 'T'] then (parseBytes ts).map .encrypt
    else if m = ['D', 'E', 'C', 'R', 'Y', 'P', 'T'] then (parseBytes ts).map .decrypt
    else if m = ['C', 'M', 'D'] then
      match ts with
      | [] => none
      | t :: bs =>
        match parseWord t, parseBytes bs with
        | some w, some d => some (.cmd w d)
        | _, _ => none
    else if m = ['R', 'E', 'A', 'D', 'S', 'R'] then (if ts = [] then some .readsr else none)
    else if m = ['R', 'E', 'S', 'E', 'T'] then (if ts = [] then some .reset else none)
    else none

/-- A line of text. -/
def parseLine (t : List Char) : Option AsmLine := parseWords (splitWords [] (dropComment t))

/-- The host's operation a line of text encodes, or none where the assembler rejects it. -/
def assembleText (t : List Char) : Option Event := (parseLine t).bind assembleLine

end Sys2Proof.Machine
end

