-- ==== Sys2Proof/Machine/Transaction.lean ====
section
/-! DEFINITION. The transaction-level functions of the spec: Enc_K and Dec_K (spec/42_round_engine.md R152) and Exec
(spec/43_context.md R184), written from those rules without the sequencer. -/

namespace Sys2Proof.Machine

/-- One encryption round: Rule A in rounds 1-8 and 17-24, Rule B in rounds 9-16 and 25-32 (R145, R146). -/
def encRound (rom : Memory) (k : Key) (r : Nat) (x : Block × Cursor) : Block × Cursor :=
  if (1 ≤ r ∧ r ≤ 8) ∨ (17 ≤ r ∧ r ≤ 24) then ruleA rom k (BitVec.ofNat 6 r) x.1 x.2
  else ruleB rom k (BitVec.ofNat 6 r) x.1 x.2

/-- One decryption round: the inverse of the rule that encrypting the round applies (R145, R147). -/
def decRound (rom : Memory) (k : Key) (r : Nat) (x : Block × Cursor) : Block × Cursor :=
  if (1 ≤ r ∧ r ≤ 8) ∨ (17 ≤ r ∧ r ≤ 24) then ruleAInv rom k (BitVec.ofNat 6 r) x.1 x.2
  else ruleBInv rom k (BitVec.ofNat 6 r) x.1 x.2

/-- The words and the cursor after encryption rounds 1 to n, starting with the cursor at 0 (R152). -/
def encAfter (rom : Memory) (k : Key) (b : Block) : Nat → Block × Cursor
  | 0 => (b, Config.cursorEncStart)
  | n + 1 => encRound rom k (n + 1) (encAfter rom k b n)

/-- The words and the cursor after n decryption rounds, 32 downwards, starting with the cursor at 8 (R152). -/
def decAfter (rom : Memory) (k : Key) (b : Block) : Nat → Block × Cursor
  | 0 => (b, Config.cursorDecStart)
  | n + 1 => decRound rom k (Config.rounds - n) (decAfter rom k b n)

/-- `Enc_K(P)` (R152). -/
def encBlock (rom : Memory) (k : Key) (p : BlockBytes) : BlockBytes := pack (encAfter rom k (unpack p) Config.rounds).1

/-- `Dec_K(C)` (R152). -/
def decBlock (rom : Memory) (k : Key) (p : BlockBytes) : BlockBytes := pack (decAfter rom k (unpack p) Config.rounds).1

/-- The state of the transaction level: the key, if one is loaded (R184: K and KV). -/
abbrev Context := Option Key

/-- The answer to an ENCRYPT or DECRYPT whose block function is `f`: NoKey, then InvalidBlockSize, then the block (R184). -/
def transactBlock (ctx : Context) (d : List Byte) (f : Key → BlockBytes → BlockBytes) : Response :=
  match ctx with
  | none => ⟨0x03#8, []⟩
  | some k => if h : d.length = 8 then ⟨0x00#8, (f k ⟨d.toArray, h⟩).toList⟩ else ⟨0x02#8, []⟩

/-- `Exec(state, CMD, D)` (R184): the context after the command, and its response. -/
def transact (rom : Memory) (ctx : Context) (c : HostCmd) : Context × Response :=
  if c.op = 0x01#8 then
    if h : c.data.length = 10 then (some ⟨c.data.toArray, h⟩, ⟨0x00#8, []⟩) else (ctx, ⟨0x01#8, []⟩)
  else if c.op = 0x02#8 then (ctx, transactBlock ctx c.data (encBlock rom))
  else if c.op = 0x03#8 then (ctx, transactBlock ctx c.data (decBlock rom))
  else (ctx, ⟨0x04#8, []⟩)

/-- A sequence of commands, each seeing what the ones before it wrote (R63): the context after them, and their responses
in order. -/
def transactAll (rom : Memory) : Context → List HostCmd → Context × List Response
  | ctx, [] => (ctx, [])
  | ctx, c :: cs =>
    let x := transact rom ctx c
    let y := transactAll rom x.1 cs
    (y.1, x.2 :: y.2)

/-- K and KV as the transaction level sees them: K holds a value only while KV = 1 (R21, R22). -/
def State.context (s : State) : Context := if s.kv then some s.key else none

end Sys2Proof.Machine
end

