-- ==== Sys2Proof/Safety.lean ====
section
/-! DEFINITION. What counts as a safe run, in the terms the statements use: which schedules a host can cause, the invariant
of the running core, and what of a state any rule can read. -/

namespace Sys2Proof.Machine

/-- An event a host and the core alone can cause: the core's turn, a port operation, or a submitted command whose LEN and
bytes agree, which the transport guarantees (R71). A unit operation issued by itself is none (R51, R100). -/
def Event.hostDriven : Event → Bool
  | .core => true
  | .submit c => c.agrees
  | .port _ => true
  | .unitOp _ => false

/-- The cursor before round r: (4(r-1)) mod 10 when encrypting, (4r) mod 10 when decrypting (R28). -/
def cursorBefore : Direction → Nat → Nat
  | .encrypt, r => (4 * (r - 1)) % 10
  | .decrypt, r => (4 * r) % 10

/-- The invariant of the core under a host: while BUSY = 1 a key is loaded, RC is in 1..32 and CUR is the cursor of that
round (R24, R25, R28); what is pending or still to be submitted is a command as the transport delivers it (R71). -/
structure State.Inv (s : State) : Prop where
  keyLoaded    : s.busy = true → s.kv = true
  roundLow     : s.busy = true → 1 ≤ s.rc.toNat
  roundHigh    : s.busy = true → s.rc.toNat ≤ 32
  cursorOfRound : s.busy = true → s.cur.toNat = cursorBefore s.dir s.rc.toNat
  pendingAgrees : ∀ c, s.pending = some c → c.agrees = true
  schedHostDriven : ∀ e ∈ s.sched, e.hostDriven = true

/-- The state with every register that holds no value replaced by its reset value: K while KV = 0, and W, RC, CUR and DIR
while BUSY = 0 (R35); and without the record of unit operations, which no rule reads. Two states with the same visible part
are one state to the host. -/
def State.visible (s : State) : State :=
  { s with
    key := if s.kv then s.key else State.reset.key
    w := if s.busy then s.w else State.reset.w
    rc := if s.busy then s.rc else State.reset.rc
    cur := if s.busy then s.cur else State.reset.cur
    dir := if s.busy then s.dir else State.reset.dir
    unitOut := none }

/-- The visible part of an outcome. -/
def visibleOutcome : Host.Outcome State Fault Refusal → Host.Outcome State Fault Refusal
  | .next t => .next t.visible
  | .fault f => .fault f
  | .refused r => .refused r

/-- It is the core's turn, and `t` is the state its step starts from: the schedule is empty or gives the core its turn, or
the host's submission waits for the one before it (R170, R181). -/
inductive CoreMoves (s : State) : State → Prop where
  | noEvent (h : s.sched = []) : CoreMoves s s
  | given (es : List Event) (h : s.sched = .core :: es) : CoreMoves s { s with sched := es }
  | waiting (c c' : HostCmd) (es : List Event) (h : s.sched = .submit c :: es) (hp : s.pending = some c') :
      CoreMoves s s

/-- How many ROUND steps an operation in progress still takes (R150, R151). -/
def State.roundsLeft (s : State) : Nat :=
  if s.busy then (match s.dir with | .encrypt => 33 - s.rc.toNat | .decrypt => s.rc.toNat) else 0

/-- How many steps the core takes over a command it accepts in this context, the ACCEPT step included: 33 where the command
starts an operation, else one (R237). -/
def stepsOf (ctx : Context) (c : HostCmd) : Nat :=
  if (c.op = 0x02#8 ∨ c.op = 0x03#8) ∧ ctx.isSome ∧ c.data.length = 8 then 33 else 1

/-- An operation is in progress in which a round may run: BUSY = 1 (R150), RC in 1..32 (R24, R149), and `c` is the value of
CUR (R25). -/
structure State.RoundReady (s : State) (c : Cursor) : Prop where
  busy      : s.busy = true
  roundLow  : 1 ≤ s.rc.toNat
  roundHigh : s.rc.toNat ≤ 32
  cursor    : s.cur.toNat = c.val

/-- `K[n mod 10]`, the key byte the cursor reaches after walking to n (R120, R121). -/
def keyAt (k : Key) (n : Nat) : Byte := k[n % 10]'(Nat.mod_lt _ (by decide))

/-- A SETKEY that succeeds wherever it is accepted (R172). -/
def isGoodSetkey (c : HostCmd) : Bool := decide (c.op = 0x01#8) && decide (c.data.length = 10)

/-- The canonical string of R102 (R101's second form): eight lines of 32 bytes. -/
def fTableLines : List Nat :=
  [0xa3d70983f848f6f4b321157899b1aff9e72d4d8ace4cca2e5295d91e4e384428,
   0x0adf02a017f1606812b77ac3e9fa3d5396846bbaf2639a197caee5f5f7166aa2,
   0x39b67b0fc193811beeb41aead0912fb855b9da853f41bfe05a58805f660bd890,
   0x35d5c0a733066569450094566d989b7697fcb2c2b0fedb20e1ebd6e4dd474a1d,
   0x42ed9e6e493ccd4327d207d4dec7671889cb301f8dc68faac874dcc95d5c31a4,
   0x7088612c9f0d2b8750825464267d0340344b1c73d1c4fd3bccfb7fabe63e5ba5,
   0xad04239c145122f02979717eff8c0ee20cefbc72756f37a1ecd38e628b8610e8,
   0x087711be924f24c532369dcff3a6bbac5e6ca9135725b5e3bda83a0105592a46]

/-- The byte at an address of the string: line a / 32, byte a mod 32 from the left. -/
def fTableStringByte (a : Nat) : Nat := (fTableLines.getD (a / 32) 0 / 256 ^ (31 - a % 32)) % 256

/-- `run n` steps of the machine from `s`. -/
abbrev runSteps (n : Nat) (s : State) : Host.Outcome State Fault Refusal := Host.Core.run Sys2Proof.core n s

end Sys2Proof.Machine
end

