-- ==== Sys2Proof/Certificates/Slice0/Obligations.lean ====
section
/-! DEFINITION. The statements about the core, each from the numbered rules of spec/. -/

open Sys2Proof Sys2Proof.Machine Host

/-! ### Decoding and encoding -/

/-- Words written out from R71, R74, R75 and R76 decode to the instructions they stand for. -/
def Obligations.WrittenWordsDecode : Prop :=
  decode (.hostCmd ⟨0b0000001000000001#16, [0x12#8, 0x34#8]⟩) = .ok (.setkey [0x12#8, 0x34#8]) ∧
  decode (.hostCmd ⟨0b0000000100000010#16, [0x80#8]⟩) = .ok (.encrypt [0x80#8]) ∧
  decode (.hostCmd ⟨0b0000000000000011#16, []⟩) = .ok (.decrypt []) ∧
  decode (.hostCmd ⟨0b0000000000000101#16, []⟩) = .ok (.reserved04 0b01#2 []) ∧
  decode (.hostCmd ⟨0b0000000011111111#16, []⟩) = .ok (.reserved80 0b1111111#7 []) ∧
  decode (.roundOp 0b01#2) = .ok .ruleB ∧ decode (.roundOp 0b10#2) = .ok .ruleAInv ∧
  decode (.unitOp (.gOp 0b1#1 0x0baf#16 4#4)) = .ok (.gInv 0x0baf#16 4#4) ∧
  decode (.unitOp (.romRd 0b00111010#8)) = .ok (.romRead 0x3A#8)

/-- Decoding the encoding of a well-formed instruction gives it back, with every operand. -/
def Obligations.DecodeOfEncodeIsIdentity : Prop :=
  ∀ i : Instr, i.wellFormed = true → decode (encode i) = .ok i

/-- A form that decodes is the encoding of what it decodes to, and that is well formed: no two forms share a
meaning. -/
def Obligations.EncodeOfDecodeIsIdentity : Prop :=
  ∀ (e : Encoded) (i : Instr), decode e = .ok i → encode i = e ∧ i.wellFormed = true

/-- Every command word whose OP is not 0x01, 0x02 or 0x03 decodes, whatever its LEN and data, to an instruction that
answers IllegalCommand with no result bytes and writes nothing else (R179, R205). -/
def Obligations.ReservedOpRaisesIllegalCommand : Prop :=
  ∀ (c : HostCmd) (s : State), c.agrees = true → c.op ≠ 0x01#8 → c.op ≠ 0x02#8 → c.op ≠ 0x03#8 →
    ∃ i, decode (.hostCmd c) = .ok i ∧
      exec i s = .next { s with outbox := s.outbox ++ [.response ⟨0x04#8, []⟩] }

/-- Each of the seven reserved rows, in every state and with every operand, answers IllegalCommand and writes nothing
else. -/
def Obligations.ReservedRowsComplete : Prop :=
  ∀ (s : State) (d : List Byte) (b2 : BitVec 2) (b3 : BitVec 3) (b4 : BitVec 4) (b5 : BitVec 5) (b6 : BitVec 6)
    (b7 : BitVec 7) (i : Instr),
    i ∈ [.reserved00 d, .reserved04 b2 d, .reserved08 b3 d, .reserved10 b4 d, .reserved20 b5 d, .reserved40 b6 d,
      .reserved80 b7 d] →
    exec i s = .next { s with outbox := s.outbox ++ [.response ⟨0x04#8, []⟩] }

/-- The rule a ROUND step applies (R145): rounds 1-8 and 17-24 use Rule A or its inverse, rounds 9-16 and 25-32 Rule B
or its inverse, by the direction. -/
def Obligations.RoundSelectsItsRule : Prop :=
  ∀ r : BitVec 6, 1 ≤ r.toNat → r.toNat ≤ 32 →
    ((r.toNat ≤ 8 ∨ (17 ≤ r.toNat ∧ r.toNat ≤ 24)) →
      decode (.roundOp (roundSelect .encrypt r)) = .ok .ruleA ∧
      decode (.roundOp (roundSelect .decrypt r)) = .ok .ruleAInv) ∧
    (((9 ≤ r.toNat ∧ r.toNat ≤ 16) ∨ 25 ≤ r.toNat) →
      decode (.roundOp (roundSelect .encrypt r)) = .ok .ruleB ∧
      decode (.roundOp (roundSelect .decrypt r)) = .ok .ruleBInv)

/-- The three command mnemonics are spellings of CMD with OP fixed and LEN the number of bytes (R81, R82); CMD rejects
a word whose high byte is not that number. -/
def Obligations.AssemblerSpellsCommands : Prop :=
  ∀ bs : List Byte, bs.length ≤ 255 →
    assembleLine (.setkey bs) = assembleLine (.cmd (BitVec.ofNat 16 (bs.length * 256 + 1)) bs) ∧
    assembleLine (.encrypt bs) = assembleLine (.cmd (BitVec.ofNat 16 (bs.length * 256 + 2)) bs) ∧
    assembleLine (.decrypt bs) = assembleLine (.cmd (BitVec.ofNat 16 (bs.length * 256 + 3)) bs) ∧
    (∀ w : Word, w.toNat / 256 = bs.length → assembleLine (.cmd w bs) = some (.submit ⟨w, bs⟩)) ∧
    (∀ w : Word, w.toNat / 256 ≠ bs.length → assembleLine (.cmd w bs) = none)

/-! ### Host commands -/

/-- SETKEY (R172): the well-formed word 0x0A01 with ten data bytes is SETKEY of them; K[j] is D[j] for every j, KV is
set, the response is OK with no result bytes, and nothing else changes. With any other number of bytes the response is
InvalidKeySize and nothing is written. -/
def Obligations.SetkeyLoadsKey : Prop :=
  ∀ (s : State) (k : Key),
    decode (.hostCmd ⟨0x0A01#16, k.toList⟩) = .ok (.setkey k.toList) ∧
    exec (.setkey k.toList) s =
      .next { s with key := k, kv := true, outbox := s.outbox ++ [.response ⟨0x00#8, []⟩] } ∧
    ∀ d : List Byte, d.length ≠ 10 →
      exec (.setkey d) s = .next { s with outbox := s.outbox ++ [.response ⟨0x01#8, []⟩] }

/-- InvalidKeySize is SETKEY's answer exactly when LEN is not 10 (R201), and then nothing is written. -/
def Obligations.InvalidKeySizeExactly : Prop :=
  ∀ (s : State) (d : List Byte),
    (d.length ≠ 10 → exec (.setkey d) s = .next { s with outbox := s.outbox ++ [.response ⟨0x01#8, []⟩] }) ∧
    (d.length = 10 → exec (.setkey d) s ≠ .next { s with outbox := s.outbox ++ [.response ⟨0x01#8, []⟩] } ∧
      ∃ t, exec (.setkey d) s = .next t ∧ t.outbox = s.outbox ++ [.response ⟨0x00#8, []⟩])

/-- Operation start (R175): ENCRYPT or DECRYPT of eight bytes under a key writes the block into W big-endian, DIR, RC
(1 or 32), CUR (0 or 8) and BUSY = 1, all at once, and nothing else. -/
def Obligations.AcceptStartsTheOperation : Prop :=
  ∀ (s : State) (d : BlockBytes), s.kv = true →
    exec (.encrypt d.toList) s =
      .next { s with
        w := ⟨byteConcat d[0] d[1], byteConcat d[2] d[3], byteConcat d[4] d[5], byteConcat d[6] d[7]⟩
        dir := .encrypt, rc := 1#6, cur := 0#4, busy := true } ∧
    exec (.decrypt d.toList) s =
      .next { s with
        w := ⟨byteConcat d[0] d[1], byteConcat d[2] d[3], byteConcat d[4] d[5], byteConcat d[6] d[7]⟩
        dir := .decrypt, rc := 32#6, cur := 8#4, busy := true }

/-- The checks of ENCRYPT and of DECRYPT in their order (R174, R176): NoKey where KV = 0, whatever LEN is;
InvalidBlockSize exactly where KV = 1 and LEN is not 8 (R202); an error writes nothing. Where neither applies there is
no response yet. -/
def Obligations.BlockErrorsExactly : Prop :=
  ∀ (s : State) (d : List Byte) (i : Instr), i = .encrypt d ∨ i = .decrypt d →
    (s.kv = false → exec i s = .next { s with outbox := s.outbox ++ [.response ⟨0x03#8, []⟩] }) ∧
    (s.kv = true → d.length ≠ 8 →
      exec i s = .next { s with outbox := s.outbox ++ [.response ⟨0x02#8, []⟩] }) ∧
    (s.kv = true → d.length = 8 → ∃ t, exec i s = .next t ∧ t.outbox = s.outbox ∧ t.busy = true)

/-- An error writes no state (R203): whatever instruction answers with a status other than OK, the answer has no
result bytes and nothing but the answer is new. -/
def Obligations.ErrorsWriteNoState : Prop :=
  ∀ (i : Instr) (s t : State) (st : Byte) (o : List Byte), exec i s = .next t →
    t.outbox = s.outbox ++ [.response ⟨st, o⟩] → st ≠ 0x00#8 →
      o = [] ∧ t = { s with outbox := s.outbox ++ [.response ⟨st, []⟩] }

/-- The order of the checks within one command (R206), on the command as the host submits it: the reserved OP first,
then NoKey, then the size. -/
def Obligations.ErrorPriority : Prop :=
  ∀ (c : HostCmd) (s : State), c.agrees = true →
    ∃ i, decode (.hostCmd c) = .ok i ∧
      (c.op ∉ [0x01#8, 0x02#8, 0x03#8] →
        exec i s = .next { s with outbox := s.outbox ++ [.response ⟨0x04#8, []⟩] }) ∧
      (c.op ∈ [0x02#8, 0x03#8] → s.kv = false →
        exec i s = .next { s with outbox := s.outbox ++ [.response ⟨0x03#8, []⟩] }) ∧
      (c.op ∈ [0x02#8, 0x03#8] → s.kv = true → c.len ≠ 8#8 →
        exec i s = .next { s with outbox := s.outbox ++ [.response ⟨0x02#8, []⟩] }) ∧
      (c.op = 0x01#8 → c.len ≠ 10#8 →
        exec i s = .next { s with outbox := s.outbox ++ [.response ⟨0x01#8, []⟩] })

/-- READ_SR, in every state: SR[0] is BUSY, SR[1] is KV, SR[7:2] read as 0, and nothing is written (R180, R29). -/
def Obligations.ReadSrShowsBusyAndKv : Prop :=
  ∀ s : State, ∃ v : Byte,
    exec .readSr s = .next { s with outbox := s.outbox ++ [.sr v] } ∧
    v.getLsbD 0 = s.busy ∧ v.getLsbD 1 = s.kv ∧ ∀ n, 2 ≤ n → v.getLsbD n = false

/-- RESET, in every state: BUSY and KV are 0, nothing is pending, the ROM is unchanged, no response is given, SR is
0x00 (R230, R231). That the schedule of what the host still does is kept is the model's choice
(notes/assumptions/18.md). Nothing of K, W, RC, CUR and DIR survives: a core that differed in them, in BUSY, in KV or
in what was pending is the same core after it; and a round rule, which reads W, RC and CUR while BUSY = 0, is a fault
(R35, I4; how the model says so: notes/assumptions/2.md). -/
def Obligations.ResetClears : Prop :=
  ∀ s : State, ∃ t, exec .reset s = .next t ∧
    t.busy = false ∧ t.kv = false ∧ t.pending = none ∧ t.rom = s.rom ∧ t.outbox = s.outbox ∧ t.sched = s.sched ∧
    t.srView = 0x00#8 ∧
    (∀ s' : State, s'.rom = s.rom → s'.sched = s.sched → s'.outbox = s.outbox → exec .reset s' = .next t) ∧
    (∀ i ∈ [Instr.ruleA, .ruleB, .ruleAInv, .ruleBInv], exec i t = .fault .operationStateHoldsNoValue)

/-! ### The F-table, the G-permutation and the round rules -/

/-- FROM(a), in every state with the ROM as it is built: the byte is the one of the canonical string (R100, R101,
R102; its values are from general knowledge, notes/assumptions/11.md), and nothing but the model's record of the unit
operation changes (notes/assumptions/7.md). -/
def Obligations.RomReadGivesTheTable : Prop :=
  ∀ (s : State) (a : Byte), s.rom = [] →
    exec (.romRead a) s =
      .next { s with unitOut := some (.byte (BitVec.ofNat 8 (fTableStringByte a.toNat))) }

/-- FROM(a) whatever the ROM lists and in every state: every address decodes, the read answers, and has no other
effect (R100, R62, R75) but the model's record of it (notes/assumptions/7.md). -/
def Obligations.RomReadHasNoSideEffect : Prop :=
  ∀ (s : State) (a : Byte), decode (.unitOp (.romRd a)) = .ok (.romRead a) ∧
    exec (.romRead a) s = .next { s with unitOut := some (.byte (s.rom.read a)) }

/-- The table is a permutation of the bytes with entry sum 32640, no fixed point, and FROM(0x69) = 0x00 (R103, which
the spec derives from R101). -/
def Obligations.TableIsAPermutation : Prop :=
  Function.Bijective (fun a => Memory.read [] a) ∧
  ((List.range 256).map fun n => (Memory.read [] (BitVec.ofNat 8 n)).toNat).sum = 32640 ∧
  (∀ a, Memory.read [] a ≠ a) ∧ Memory.read [] 0x69#8 = 0x00#8

/-- G(w, c) (R120): the form GOP with GD = 0 is G, and for every word and every cursor 0..9, whatever KV is
(notes/assumptions/19.md), G gives what its pseudocode says; no state is written but the model's record of the unit
operation (notes/assumptions/7.md). -/
def Obligations.GComputesFourLookups : Prop :=
  ∀ (s : State) (w : Word) (c : BitVec 4), c.toNat < 10 →
    let g1 : Byte := w.extractLsb' 8 8
    let g2 : Byte := w.extractLsb' 0 8
    let g3 := s.rom.read (g2 ^^^ keyAt s.key c.toNat) ^^^ g1
    let g4 := s.rom.read (g3 ^^^ keyAt s.key (c.toNat + 1)) ^^^ g2
    let g5 := s.rom.read (g4 ^^^ keyAt s.key (c.toNat + 2)) ^^^ g3
    let g6 := s.rom.read (g5 ^^^ keyAt s.key (c.toNat + 3)) ^^^ g4
    decode (.unitOp (.gOp 0#1 w c)) = .ok (.g w c) ∧ exec (.g w c) s =
      .next { s with unitOut := some (.word (byteConcat g5 g6) (BitVec.ofNat 4 ((c.toNat + 4) % 10))) }

/-- The inverse of G (R121): the form GOP with GD = 1 is it, and it gives what its pseudocode says, the cursor moving
back by one before each read of the same table (the spec derives R121 from R120), whatever KV is
(notes/assumptions/19.md; the record: notes/assumptions/7.md). -/
def Obligations.GInvComputesFourLookups : Prop :=
  ∀ (s : State) (w : Word) (c : BitVec 4), c.toNat < 10 →
    let g5 : Byte := w.extractLsb' 8 8
    let g6 : Byte := w.extractLsb' 0 8
    let g4 := s.rom.read (g5 ^^^ keyAt s.key (c.toNat + 9)) ^^^ g6
    let g3 := s.rom.read (g4 ^^^ keyAt s.key (c.toNat + 8)) ^^^ g5
    let g2 := s.rom.read (g3 ^^^ keyAt s.key (c.toNat + 7)) ^^^ g4
    let g1 := s.rom.read (g2 ^^^ keyAt s.key (c.toNat + 6)) ^^^ g3
    decode (.unitOp (.gOp 1#1 w c)) = .ok (.gInv w c) ∧ exec (.gInv w c) s =
      .next { s with unitOut := some (.word (byteConcat g1 g2) (BitVec.ofNat 4 ((c.toNat + 6) % 10))) }

/-- The inverse law (R122, which the spec derives from R120 and R121), for every ROM contents and key. -/
def Obligations.GInverseLaw : Prop :=
  ∀ (rom : Memory) (k : Key) (w : Word) (c : Cursor),
    gInverse rom k (gForward rom k w c).1 (gForward rom k w c).2 = (w, c) ∧
    gForward rom k (gInverse rom k w c).1 (gInverse rom k w c).2 = (w, c)

/-- The cursor law (R123, which the spec derives from R120 and R121): G adds 4 modulo 10 and its inverse subtracts 4
modulo 10, whatever the word and the key. -/
def Obligations.GCursorLaw : Prop :=
  ∀ (rom : Memory) (k : Key) (w : Word) (c : Cursor),
    (gForward rom k w c).2.val = (c.val + 4) % 10 ∧ ((gInverse rom k w c).2.val + 4) % 10 = c.val

/-- The permutation law (R124, which the spec derives from R122): for a fixed key and cursor G is a bijection on the
words, whatever the table holds. -/
def Obligations.GIsABijection : Prop :=
  ∀ (rom : Memory) (k : Key) (c : Cursor), Function.Bijective fun w => (gForward rom k w c).1

/-- RULE_A (R140): MOP 0b00 is it; what it writes, from the words as they were, and that it writes nothing else. -/
def Obligations.RuleAResult : Prop :=
  ∀ (s : State) (c : Cursor), s.RoundReady c →
    let t := (gForward s.rom s.key s.w.w1 c).1
    decode (.roundOp 0b00#2) = .ok .ruleA ∧ exec .ruleA s =
      .next { s with
        w := ⟨t ^^^ s.w.w4 ^^^ BitVec.ofNat 16 s.rc.toNat, t, s.w.w2, s.w.w3⟩
        cur := BitVec.ofNat 4 ((c.val + 4) % 10) }

/-- RULE_B (R141, the published wiring, notes/assumptions/12.md): MOP 0b01 is it; what it writes, from the words as
they were, and that it writes nothing else. -/
def Obligations.RuleBResult : Prop :=
  ∀ (s : State) (c : Cursor), s.RoundReady c →
    let t := (gForward s.rom s.key s.w.w1 c).1
    decode (.roundOp 0b01#2) = .ok .ruleB ∧ exec .ruleB s =
      .next { s with
        w := ⟨s.w.w4, t, s.w.w1 ^^^ s.w.w2 ^^^ BitVec.ofNat 16 s.rc.toNat, s.w.w3⟩
        cur := BitVec.ofNat 4 ((c.val + 4) % 10) }

/-- RULE_A_INV (R142, which the spec derives from R140): MOP 0b10 is it; what it writes, from the words as they were,
and that it writes nothing else. -/
def Obligations.RuleAInvResult : Prop :=
  ∀ (s : State) (c : Cursor), s.RoundReady c →
    let x := (gInverse s.rom s.key s.w.w2 c).1
    decode (.roundOp 0b10#2) = .ok .ruleAInv ∧ exec .ruleAInv s =
      .next { s with
        w := ⟨x, s.w.w3, s.w.w4, s.w.w1 ^^^ s.w.w2 ^^^ BitVec.ofNat 16 s.rc.toNat⟩
        cur := BitVec.ofNat 4 ((c.val + 6) % 10) }

/-- RULE_B_INV (R143, which the spec derives from R141): MOP 0b11 is it; what it writes, from the words as they were,
and that it writes nothing else. -/
def Obligations.RuleBInvResult : Prop :=
  ∀ (s : State) (c : Cursor), s.RoundReady c →
    let x := (gInverse s.rom s.key s.w.w2 c).1
    decode (.roundOp 0b11#2) = .ok .ruleBInv ∧ exec .ruleBInv s =
      .next { s with
        w := ⟨x, x ^^^ s.w.w3 ^^^ BitVec.ofNat 16 s.rc.toNat, s.w.w4, s.w.w1⟩
        cur := BitVec.ofNat 4 ((c.val + 6) % 10) }

/-- The round inverse law (R148, derived by the spec) of the instructions: a rule and its inverse at the same round
undo each other, in both orders, the cursor with the words. -/
def Obligations.RoundInverseLaw : Prop :=
  ∀ s t : State,
    (exec .ruleA s = .next t → exec .ruleAInv t = .next s) ∧
    (exec .ruleAInv s = .next t → exec .ruleA t = .next s) ∧
    (exec .ruleB s = .next t → exec .ruleBInv t = .next s) ∧
    (exec .ruleBInv s = .next t → exec .ruleB t = .next s)

/-- The round inverse law and its composition (R148, which the spec derives from the rules): at every round and cursor
each inverse rule takes the words and the cursor back; so the 32 decryption rounds undo the 32 encryption rounds on
the words, and the cursor returns from 8 to 0. -/
def Obligations.RoundsComposeToIdentity : Prop :=
  ∀ (rom : Memory) (k : Key) (b : Block),
    (∀ (r : BitVec 6) (c : Cursor),
      ruleAInv rom k r (ruleA rom k r b c).1 (ruleA rom k r b c).2 = (b, c) ∧
      ruleBInv rom k r (ruleB rom k r b c).1 (ruleB rom k r b c).2 = (b, c)) ∧
    (encAfter rom k b 32).2 = 8 ∧ decAfter rom k (encAfter rom k b 32).1 32 = (b, 0) ∧
    encAfter rom k (decAfter rom k b 32).1 32 = (b, 8)

/-- The cursor is a pure function of the round (R28, derived by the spec): (4n) mod 10 after n encryption rounds, and
(4(32-n)) mod 10 after n decryption rounds. -/
def Obligations.CursorIsFunctionOfRound : Prop :=
  ∀ (rom : Memory) (k : Key) (b : Block) (n : Nat), n ≤ 32 →
    (encAfter rom k b n).2.val = (4 * n) % 10 ∧ (decAfter rom k b n).2.val = (4 * (32 - n)) % 10

/-- The reads that are faults here, never values: a round rule's of W, RC and CUR while BUSY = 0 (R35, I4), of a round
counter of 0 or 33..63 (I12), and of a cursor of 10..15, which G and its inverse do not take either (I11):
notes/assumptions/2.md and 3.md. The order of a round rule's checks, BUSY, then RC, then CUR, is the model's choice
(notes/assumptions/3.md). R35, I3 and D26 name one more read, of K while KV = 0: the model completes there
(notes/assumptions/19.md), and this statement leaves it out. -/
def Obligations.RoundAndCursorReadsFault : Prop :=
  ∀ s : State,
    (∀ i ∈ [Instr.ruleA, .ruleB, .ruleAInv, .ruleBInv],
      (s.busy = false → exec i s = .fault .operationStateHoldsNoValue) ∧
      (s.busy = true → s.rc.toNat = 0 ∨ 33 ≤ s.rc.toNat → exec i s = .fault .roundIndexOutOfRange) ∧
      (s.busy = true → 1 ≤ s.rc.toNat → s.rc.toNat ≤ 32 → 10 ≤ s.cur.toNat → exec i s = .fault .cursorOutOfRange)) ∧
    (∀ (w : Word) (c : BitVec 4), 10 ≤ c.toNat →
      ∀ i ∈ [Instr.g w c, .gInv w c], exec i s = .fault .cursorOutOfRange)

/-! ### Block bytes and memory -/

/-- Unpacking is big-endian, packing is the same order in reverse, and each undoes the other (R54, R55). -/
def Obligations.BlockBytesAreBigEndian : Prop :=
  (∀ d : BlockBytes,
    (unpack d).w1.toNat = d[0].toNat * 256 + d[1].toNat ∧ (unpack d).w2.toNat = d[2].toNat * 256 + d[3].toNat ∧
    (unpack d).w3.toNat = d[4].toNat * 256 + d[5].toNat ∧ (unpack d).w4.toNat = d[6].toNat * 256 + d[7].toNat ∧
    pack (unpack d) = d) ∧
  (∀ b : Block,
    pack b = #v[b.w1.extractLsb' 8 8, b.w1.extractLsb' 0 8, b.w2.extractLsb' 8 8, b.w2.extractLsb' 0 8,
      b.w3.extractLsb' 8 8, b.w3.extractLsb' 0 8, b.w4.extractLsb' 8 8, b.w4.extractLsb' 0 8] ∧
    unpack (pack b) = b)

/-- Memories in canonical form that read alike at every address are equal data (notes/assumptions/13.md). -/
def Obligations.CanonicalMemoriesAreEqual : Prop :=
  ∀ m m' : Memory, m.wf = true → m'.wf = true → (∀ a, m.read a = m'.read a) → m = m'

/-- The ROM never changes (R105): after any step, a reset among them, every byte of it reads as before; and it holds
the table of R101 from power-on (its values: notes/assumptions/11.md). -/
def Obligations.RomNeverChanges : Prop :=
  (∀ s t : State, step s = .next t → t.rom = s.rom ∧ ∀ a, t.rom.read a = s.rom.read a) ∧
  ∀ a : Byte, State.reset.rom.read a = BitVec.ofNat 8 (fTableStringByte a.toNat)

/-! ### The step -/

/-- A step runs the decoded instruction: in an idle core whose turn it is, the pending command, which is consumed
(R171); a port operation at the head of the schedule, taken off it (R73); and a unit operation there. The schedule
itself is the model's choice (notes/assumptions/4.md), and so is a G or FROM operation issued by itself as a step
(notes/assumptions/7.md). -/
def Obligations.StepRunsDecodedInstruction : Prop :=
  ∀ (s : State) (i : Instr),
    (∀ p es, s.sched = .port p :: es → decode (.port p) = .ok i → step s = exec i { s with sched := es }) ∧
    (∀ u es, s.sched = .unitOp u :: es → decode (.unitOp u) = .ok i → step s = exec i { s with sched := es }) ∧
    (∀ t c, CoreMoves s t → s.busy = false → s.pending = some c → decode (.hostCmd c) = .ok i →
      step s = exec i { t with pending := none })

/-- The ROUND step (R150): while BUSY = 1 and it is the core's turn, the step runs the rule MOP selects, then on the
last round clears BUSY and responds with the packed block, and otherwise moves RC by one; a fault of the rule is the
step's. -/
def Obligations.RoundStepRunsSelectedRule : Prop :=
  ∀ (s t : State) (i : Instr), CoreMoves s t → s.busy = true →
    decode (.roundOp (roundSelect s.dir s.rc)) = .ok i →
    (∀ f, exec i t = .fault f → step s = .fault f) ∧
    (∀ u, exec i t = .next u → step s = .next
      (if (u.dir = .encrypt ∧ u.rc = 32#6) ∨ (u.dir = .decrypt ∧ u.rc = 1#6) then
        { u with busy := false, outbox := u.outbox ++ [.response ⟨0x00#8, (pack u.w).toList⟩] }
      else if u.dir = .encrypt then { u with rc := u.rc + 1#6 }
      else { u with rc := u.rc - 1#6 }))

/-- SUBMIT makes the command pending, at most one at a time; a submission that finds one pending waits while the core
moves, and is then still first in line (R170, R181; the wait is the model's reading of R170, notes/assumptions/5.md;
that what is listed behind it waits too is the model's choice, notes/assumptions/21.md). -/
def Obligations.SubmitMakesPendingOrWaits : Prop :=
  ∀ (s : State) (c : HostCmd) (es : List Event), s.sched = .submit c :: es →
    (s.pending = none → step s = .next { s with pending := some c, sched := es }) ∧
    (∀ c' t, s.pending = some c' → step s = .next t → t.sched = .submit c :: es)

/-- An idle core with nothing pending stays as it is (R27; that its turn changes nothing is the model's reading,
notes/assumptions/9.md). -/
def Obligations.IdleCoreWaits : Prop :=
  ∀ s t : State, CoreMoves s t → s.busy = false → s.pending = none → step s = .next t

/-- The command hold (R181, R61, R234): under the invariant, while BUSY = 1 the core's step completes, keeps the
pending command pending and changes neither the key nor KV. -/
def Obligations.CommandHoldWhileBusy : Prop :=
  ∀ s t : State, s.Inv → CoreMoves s t → s.busy = true →
    ∃ u, step s = .next u ∧ u.pending = s.pending ∧ u.key = s.key ∧ u.kv = s.kv

/-- Only a successful SETKEY writes K and sets KV, and only reset clears KV (R21, R22). -/
def Obligations.OnlySetkeyAndResetTouchKey : Prop :=
  ∀ s t : State, step s = .next t →
    (t.key = s.key ∧ t.kv = s.kv) ∨
    (∃ c : HostCmd, s.busy = false ∧ s.pending = some c ∧ c.op = 0x01#8 ∧ c.data = t.key.toList ∧ t.kv = true) ∨
    ((∃ es, s.sched = .port .reset :: es) ∧ t.kv = false)

/-- RESET as a step aborts whatever runs: no response, nothing pending, and then ENCRYPT and DECRYPT answer NoKey
(R231, R233). That what still waits on the schedule is kept is the model's choice (notes/assumptions/18.md). -/
def Obligations.ResetAbortsOperation : Prop :=
  ∀ (s : State) (es : List Event), s.sched = .port .reset :: es →
    ∃ t, step s = .next t ∧ t.outbox = s.outbox ∧ t.busy = false ∧ t.pending = none ∧ t.sched = es ∧
      ∀ d, exec (.encrypt d) t = .next { t with outbox := s.outbox ++ [.response ⟨0x03#8, []⟩] } ∧
        exec (.decrypt d) t = .next { t with outbox := s.outbox ++ [.response ⟨0x03#8, []⟩] }

/-- What a step can deliver to the host (R72, R200): at most one thing, added at the end; a response has one of the
five status codes, and result bytes, eight of them, only with OK. -/
def Obligations.StepDeliversAtMostOne : Prop :=
  ∀ s t : State, step s = .next t →
    t.outbox = s.outbox ∨ (∃ v, t.outbox = s.outbox ++ [.sr v]) ∨
    ∃ st o, t.outbox = s.outbox ++ [.response ⟨st, o⟩] ∧ st.toNat ≤ 4 ∧ (o = [] ∨ (st = 0x00#8 ∧ o.length = 8))

/-- No instruction delivers the key (R21, R212): with any other key in the register the same things are delivered. -/
def Obligations.NoInstructionDeliversTheKey : Prop :=
  ∀ (i : Instr) (s t t' : State) (k : Key), exec i s = .next t → exec i { s with key := k } = .next t' →
    t'.outbox = t.outbox

/-! ### Invariants -/

/-- The invariant holds at reset. -/
def Obligations.ResetMeetsInvariant : Prop := State.reset.Inv ∧ State.reset.rom.wf = true

/-- Every step keeps the invariant, whatever the host does: a running operation has a key, RC in 1..32 and the cursor
of its round. -/
def Obligations.StepKeepsInvariant : Prop := ∀ s t : State, s.Inv → step s = .next t → t.Inv

/-- Nothing can fail (R149, R207; the invariant is the model's): under the invariant every step completes, with no
fault and no refusal. -/
def Obligations.StepNeverStops : Prop := ∀ s : State, s.Inv → ∃ t, step s = .next t

/-- SR is 0x00, 0x02 or 0x03 (spec/95_test_vectors.md 2.8, derived by the spec): BUSY is never up without KV. -/
def Obligations.SrIsNeverBusyWithoutKey : Prop :=
  ∀ s : State, s.Inv → s.srView = 0x00#8 ∨ s.srView = 0x02#8 ∨ s.srView = 0x03#8

/-- What holds no value decides nothing (R33, R35, derived by the spec): two states that differ only in K while KV =
0, in W, RC, CUR and DIR while BUSY = 0, and in the record of unit operations, step alike. The premise is a part of
the invariant: an operation runs only under a key. -/
def Obligations.ValuelessRegistersDecideNothing : Prop :=
  ∀ s t : State, (s.busy = true → s.kv = true) → s.visible = t.visible →
    visibleOutcome (step s) = visibleOutcome (step t)

/-! ### Whole operations -/

/-- The worked vectors of the source, through Enc_K and Dec_K. -/
def Obligations.SourceVectorsHold : Prop :=
  encBlock [] #v[0x00#8, 0x99#8, 0x88#8, 0x77#8, 0x66#8, 0x55#8, 0x44#8, 0x33#8, 0x22#8, 0x11#8]
      #v[0x33#8, 0x22#8, 0x11#8, 0x00#8, 0xDD#8, 0xCC#8, 0xBB#8, 0xAA#8] =
    #v[0x25#8, 0x87#8, 0xCA#8, 0xE2#8, 0x7A#8, 0x12#8, 0xD3#8, 0x00#8] ∧
  decBlock [] #v[0x00#8, 0x99#8, 0x88#8, 0x77#8, 0x66#8, 0x55#8, 0x44#8, 0x33#8, 0x22#8, 0x11#8]
      #v[0x25#8, 0x87#8, 0xCA#8, 0xE2#8, 0x7A#8, 0x12#8, 0xD3#8, 0x00#8] =
    #v[0x33#8, 0x22#8, 0x11#8, 0x00#8, 0xDD#8, 0xCC#8, 0xBB#8, 0xAA#8] ∧
  encBlock [] (Vector.replicate 10 0x00#8) #v[0x00#8, 0x00#8, 0x00#8, 0x00#8, 0x00#8, 0x00#8, 0x00#8, 0x80#8] =
    #v[0x03#8, 0x37#8, 0xC7#8, 0x75#8, 0x0B#8, 0xBC#8, 0x90#8, 0x9A#8]

/-- Round trip (R182, which the spec derives from R148): for every key and block decryption undoes encryption and
encryption undoes decryption, whatever the table holds. -/
def Obligations.RoundTrip : Prop :=
  ∀ (rom : Memory) (k : Key) (p : BlockBytes),
    decBlock rom k (encBlock rom k p) = p ∧ encBlock rom k (decBlock rom k p) = p

/-- Termination (R151, which the spec derives from R150): under the invariant an operation in progress stays BUSY for
exactly the rounds it has left, then ends with one response of eight bytes; a fresh operation has 32 rounds left. -/
def Obligations.OperationTerminates : Prop :=
  (∀ s : State, s.Inv → s.busy = true → s.sched = [] →
    (∀ n, n < s.roundsLeft → ∃ t, runSteps n s = .next t ∧ t.busy = true ∧ t.outbox = s.outbox) ∧
    ∃ t o, runSteps s.roundsLeft s = .next t ∧ t.busy = false ∧ o.length = 8 ∧
      t.outbox = s.outbox ++ [.response ⟨0x00#8, o⟩]) ∧
  (∀ (s : State) (dir : Direction) (d : BlockBytes), (s.startOperation dir d).roundsLeft = 32)

/-- The step-level machine and Exec agree (R184, derived by the spec): a command pending in an idle core, with no
reset in between, is answered as Exec answers it, after one ACCEPT and, for an operation, 32 ROUND steps; K and KV are
then as Exec leaves them. -/
def Obligations.StepMachineRefinesExec : Prop :=
  ∀ (s : State) (c : HostCmd), s.busy = false → s.sched = [] → s.pending = some c → c.agrees = true →
    ∃ t, runSteps (stepsOf s.context c) s = .next t ∧ t.busy = false ∧ t.pending = none ∧ t.rom = s.rom ∧
      t.context = (transact s.rom s.context c).1 ∧
      t.outbox = s.outbox ++ [.response (transact s.rom s.context c).2]

/-- Transaction-level equivalence (R184, derived by the spec), whatever the host does meanwhile but reset: READ_SRs,
further submissions and the core's turns in any order. A command accepted at BUSY = 0 is answered as Exec answers it;
nothing but SR values is delivered before that, and K and KV are then as Exec leaves them. That a further submission
met while a command is pending waits, and neither is dropped nor overwrites it, is the model's reading
(notes/assumptions/5.md); that a READ_SR listed behind it waits too is the model's choice
(notes/assumptions/21.md). -/
def Obligations.EveryHostGetsExecsAnswer : Prop :=
  ∀ (s : State) (c : HostCmd), s.busy = false → s.pending = some c → c.agrees = true →
    (∀ e ∈ s.sched, e.hostDriven = true ∧ e ≠ .port .reset) →
    ∃ (n : Nat) (t : State) (vs : List Byte), runSteps n s = .next t ∧ t.busy = false ∧ t.rom = s.rom ∧
      t.context = (transact s.rom s.context c).1 ∧
      t.outbox = s.outbox ++ vs.map .sr ++ [.response (transact s.rom s.context c).2]

/-- Commands in sequence (R63, R181): however many commands the host submits to an idle core, each is answered exactly
once, in the order of submission, as Exec answers them one after another. R170 does not say what a second SUBMIT meets
while one is pending: that it waits is the model's reading (notes/assumptions/5.md). -/
def Obligations.CommandStreamRefinesExec : Prop :=
  ∀ (cs : List HostCmd) (s : State), s.busy = false → s.pending = none → s.sched = cs.map .submit →
    (∀ c ∈ cs, c.agrees = true) →
    ∃ n t, runSteps n s = .next t ∧ t.busy = false ∧ t.pending = none ∧ t.sched = [] ∧ t.rom = s.rom ∧
      t.context = (transactAll s.rom s.context cs).1 ∧
      t.outbox = s.outbox ++ (transactAll s.rom s.context cs).2.map .response

/-- Determinism (R183, derived by the spec): the same ENCRYPT or DECRYPT before and after any commands among which no
SETKEY succeeds is answered with the same response. That the later submissions wait while one is pending is the
model's reading (notes/assumptions/5.md). -/
def Obligations.SameBlockSameAnswer : Prop :=
  ∀ (c : HostCmd) (cs : List HostCmd) (s : State), s.busy = false → s.pending = none →
    s.sched = (c :: cs ++ [c]).map .submit → c.op = 0x02#8 ∨ c.op = 0x03#8 → c.agrees = true →
    (∀ c' ∈ cs, c'.agrees = true ∧ isGoodSetkey c' = false) →
    ∃ n t r rs, runSteps n s = .next t ∧ t.busy = false ∧ t.sched = [] ∧ rs.length = cs.length ∧
      t.outbox = s.outbox ++ (r :: rs ++ [r]).map .response
end

