-- ==== Sys2Proof/Laws/State.lean ====
section
/-! SUPPORT. One lemma per field per named update of the state, so that no proof unfolds a record update. -/

namespace Sys2Proof.Machine

variable (s : State)

/-! ### deliver -/

@[simp] theorem deliver_key (p : PortOut) : (s.deliver p).key = s.key := rfl
@[simp] theorem deliver_kv (p : PortOut) : (s.deliver p).kv = s.kv := rfl
@[simp] theorem deliver_w (p : PortOut) : (s.deliver p).w = s.w := rfl
@[simp] theorem deliver_rc (p : PortOut) : (s.deliver p).rc = s.rc := rfl
@[simp] theorem deliver_cur (p : PortOut) : (s.deliver p).cur = s.cur := rfl
@[simp] theorem deliver_dir (p : PortOut) : (s.deliver p).dir = s.dir := rfl
@[simp] theorem deliver_busy (p : PortOut) : (s.deliver p).busy = s.busy := rfl
@[simp] theorem deliver_rom (p : PortOut) : (s.deliver p).rom = s.rom := rfl
@[simp] theorem deliver_pending (p : PortOut) : (s.deliver p).pending = s.pending := rfl
@[simp] theorem deliver_sched (p : PortOut) : (s.deliver p).sched = s.sched := rfl
@[simp] theorem deliver_outbox (p : PortOut) : (s.deliver p).outbox = s.outbox ++ [p] := rfl
@[simp] theorem deliver_unitOut (p : PortOut) : (s.deliver p).unitOut = s.unitOut := rfl

/-! ### respond -/

@[simp] theorem respond_key (st : Status) (o : List Byte) : (s.respond st o).key = s.key := rfl
@[simp] theorem respond_kv (st : Status) (o : List Byte) : (s.respond st o).kv = s.kv := rfl
@[simp] theorem respond_w (st : Status) (o : List Byte) : (s.respond st o).w = s.w := rfl
@[simp] theorem respond_rc (st : Status) (o : List Byte) : (s.respond st o).rc = s.rc := rfl
@[simp] theorem respond_cur (st : Status) (o : List Byte) : (s.respond st o).cur = s.cur := rfl
@[simp] theorem respond_dir (st : Status) (o : List Byte) : (s.respond st o).dir = s.dir := rfl
@[simp] theorem respond_busy (st : Status) (o : List Byte) : (s.respond st o).busy = s.busy := rfl
@[simp] theorem respond_rom (st : Status) (o : List Byte) : (s.respond st o).rom = s.rom := rfl
@[simp] theorem respond_pending (st : Status) (o : List Byte) : (s.respond st o).pending = s.pending := rfl
@[simp] theorem respond_sched (st : Status) (o : List Byte) : (s.respond st o).sched = s.sched := rfl
@[simp] theorem respond_outbox (st : Status) (o : List Byte) : (s.respond st o).outbox = s.outbox ++ [.response ⟨st.code, o⟩] := rfl
@[simp] theorem respond_unitOut (st : Status) (o : List Byte) : (s.respond st o).unitOut = s.unitOut := rfl

/-! ### raiseError -/

@[simp] theorem raiseError_key (e : Status) : (s.raiseError e).key = s.key := rfl
@[simp] theorem raiseError_kv (e : Status) : (s.raiseError e).kv = s.kv := rfl
@[simp] theorem raiseError_w (e : Status) : (s.raiseError e).w = s.w := rfl
@[simp] theorem raiseError_rc (e : Status) : (s.raiseError e).rc = s.rc := rfl
@[simp] theorem raiseError_cur (e : Status) : (s.raiseError e).cur = s.cur := rfl
@[simp] theorem raiseError_dir (e : Status) : (s.raiseError e).dir = s.dir := rfl
@[simp] theorem raiseError_busy (e : Status) : (s.raiseError e).busy = s.busy := rfl
@[simp] theorem raiseError_rom (e : Status) : (s.raiseError e).rom = s.rom := rfl
@[simp] theorem raiseError_pending (e : Status) : (s.raiseError e).pending = s.pending := rfl
@[simp] theorem raiseError_sched (e : Status) : (s.raiseError e).sched = s.sched := rfl
@[simp] theorem raiseError_outbox (e : Status) : (s.raiseError e).outbox = s.outbox ++ [.response ⟨e.code, []⟩] := rfl
@[simp] theorem raiseError_unitOut (e : Status) : (s.raiseError e).unitOut = s.unitOut := rfl

/-! ### startOperation -/

@[simp] theorem startOperation_key (dir : Direction) (d : BlockBytes) : (s.startOperation dir d).key = s.key := rfl
@[simp] theorem startOperation_kv (dir : Direction) (d : BlockBytes) : (s.startOperation dir d).kv = s.kv := rfl
@[simp] theorem startOperation_w (dir : Direction) (d : BlockBytes) : (s.startOperation dir d).w = unpack d := rfl
@[simp] theorem startOperation_rc (dir : Direction) (d : BlockBytes) : (s.startOperation dir d).rc = startRound dir := rfl
@[simp] theorem startOperation_cur (dir : Direction) (d : BlockBytes) : (s.startOperation dir d).cur = cursorBits (startCursor dir) := rfl
@[simp] theorem startOperation_dir (dir : Direction) (d : BlockBytes) : (s.startOperation dir d).dir = dir := rfl
@[simp] theorem startOperation_busy (dir : Direction) (d : BlockBytes) : (s.startOperation dir d).busy = true := rfl
@[simp] theorem startOperation_rom (dir : Direction) (d : BlockBytes) : (s.startOperation dir d).rom = s.rom := rfl
@[simp] theorem startOperation_pending (dir : Direction) (d : BlockBytes) : (s.startOperation dir d).pending = s.pending := rfl
@[simp] theorem startOperation_sched (dir : Direction) (d : BlockBytes) : (s.startOperation dir d).sched = s.sched := rfl
@[simp] theorem startOperation_outbox (dir : Direction) (d : BlockBytes) : (s.startOperation dir d).outbox = s.outbox := rfl
@[simp] theorem startOperation_unitOut (dir : Direction) (d : BlockBytes) : (s.startOperation dir d).unitOut = s.unitOut := rfl

/-! ### writeRound -/

@[simp] theorem writeRound_key (x : Block × Cursor) : (s.writeRound x).key = s.key := rfl
@[simp] theorem writeRound_kv (x : Block × Cursor) : (s.writeRound x).kv = s.kv := rfl
@[simp] theorem writeRound_w (x : Block × Cursor) : (s.writeRound x).w = x.1 := rfl
@[simp] theorem writeRound_rc (x : Block × Cursor) : (s.writeRound x).rc = s.rc := rfl
@[simp] theorem writeRound_cur (x : Block × Cursor) : (s.writeRound x).cur = cursorBits x.2 := rfl
@[simp] theorem writeRound_dir (x : Block × Cursor) : (s.writeRound x).dir = s.dir := rfl
@[simp] theorem writeRound_busy (x : Block × Cursor) : (s.writeRound x).busy = s.busy := rfl
@[simp] theorem writeRound_rom (x : Block × Cursor) : (s.writeRound x).rom = s.rom := rfl
@[simp] theorem writeRound_pending (x : Block × Cursor) : (s.writeRound x).pending = s.pending := rfl
@[simp] theorem writeRound_sched (x : Block × Cursor) : (s.writeRound x).sched = s.sched := rfl
@[simp] theorem writeRound_outbox (x : Block × Cursor) : (s.writeRound x).outbox = s.outbox := rfl
@[simp] theorem writeRound_unitOut (x : Block × Cursor) : (s.writeRound x).unitOut = s.unitOut := rfl

/-! ### returnWord -/

@[simp] theorem returnWord_key (x : Word × Cursor) : (s.returnWord x).key = s.key := rfl
@[simp] theorem returnWord_kv (x : Word × Cursor) : (s.returnWord x).kv = s.kv := rfl
@[simp] theorem returnWord_w (x : Word × Cursor) : (s.returnWord x).w = s.w := rfl
@[simp] theorem returnWord_rc (x : Word × Cursor) : (s.returnWord x).rc = s.rc := rfl
@[simp] theorem returnWord_cur (x : Word × Cursor) : (s.returnWord x).cur = s.cur := rfl
@[simp] theorem returnWord_dir (x : Word × Cursor) : (s.returnWord x).dir = s.dir := rfl
@[simp] theorem returnWord_busy (x : Word × Cursor) : (s.returnWord x).busy = s.busy := rfl
@[simp] theorem returnWord_rom (x : Word × Cursor) : (s.returnWord x).rom = s.rom := rfl
@[simp] theorem returnWord_pending (x : Word × Cursor) : (s.returnWord x).pending = s.pending := rfl
@[simp] theorem returnWord_sched (x : Word × Cursor) : (s.returnWord x).sched = s.sched := rfl
@[simp] theorem returnWord_outbox (x : Word × Cursor) : (s.returnWord x).outbox = s.outbox := rfl
@[simp] theorem returnWord_unitOut (x : Word × Cursor) : (s.returnWord x).unitOut = some (.word x.1 (cursorBits x.2)) := rfl

/-! ### afterReset -/

@[simp] theorem afterReset_key : s.afterReset.key = State.reset.key := rfl
@[simp] theorem afterReset_kv : s.afterReset.kv = State.reset.kv := rfl
@[simp] theorem afterReset_w : s.afterReset.w = State.reset.w := rfl
@[simp] theorem afterReset_rc : s.afterReset.rc = State.reset.rc := rfl
@[simp] theorem afterReset_cur : s.afterReset.cur = State.reset.cur := rfl
@[simp] theorem afterReset_dir : s.afterReset.dir = State.reset.dir := rfl
@[simp] theorem afterReset_busy : s.afterReset.busy = State.reset.busy := rfl
@[simp] theorem afterReset_rom : s.afterReset.rom = s.rom := rfl
@[simp] theorem afterReset_pending : s.afterReset.pending = State.reset.pending := rfl
@[simp] theorem afterReset_sched : s.afterReset.sched = s.sched := rfl
@[simp] theorem afterReset_outbox : s.afterReset.outbox = s.outbox := rfl
@[simp] theorem afterReset_unitOut : s.afterReset.unitOut = State.reset.unitOut := rfl

/-! ### reset -/

@[simp] theorem reset_kv : State.reset.kv = false := rfl
@[simp] theorem reset_busy : State.reset.busy = false := rfl
@[simp] theorem reset_rom : State.reset.rom = [] := rfl
@[simp] theorem reset_pending : State.reset.pending = none := rfl
@[simp] theorem reset_sched : State.reset.sched = [] := rfl
@[simp] theorem reset_outbox : State.reset.outbox = [] := rfl
@[simp] theorem reset_unitOut : State.reset.unitOut = none := rfl

end Sys2Proof.Machine
end

