-- ==== Sys2Proof/Laws/Ops.lean ====
section
/-! SUPPORT. What each shared operation can do, said once: the ROM read, the guarded operand reads, the conditional
updates, and that no operation writes the ROM. -/

namespace Sys2Proof.Machine

/-! ### The ROM -/

@[simp] theorem read_nil (a : Byte) : Memory.read [] a = fTable a := rfl

theorem read_cons (k : Nat) (v : Byte) (m : Memory) (a : Byte) :
    Memory.read ((k, v) :: m) a = if k = a.toNat then v else m.read a := rfl

theorem reset_rom_wf : Memory.wf State.reset.rom = true := rfl

/-! ### Conditional updates -/

/-- SETKEY either loads the whole key and answers OK, or answers InvalidKeySize and writes nothing. -/
theorem loadKey_cases (s : State) (d : List Byte) :
    (∃ h : d.length = 10,
      s.loadKey d = ({ s with key := ⟨d.toArray, h⟩, kv := true } : State).respond .ok []) ∨
    (d.length ≠ 10 ∧ s.loadKey d = s.raiseError .invalidKeySize) := by
  by_cases h : d.length = 10
  · exact .inl ⟨h, by simp [State.loadKey, h]⟩
  · exact .inr ⟨h, by simp [State.loadKey, h]⟩

/-- ACCEPT of ENCRYPT or DECRYPT starts the operation, or answers NoKey, or answers InvalidBlockSize. -/
theorem acceptOperation_cases (s : State) (dir : Direction) (d : List Byte) :
    (s.kv = false ∧ s.acceptOperation dir d = s.raiseError .noKey) ∨
    (s.kv = true ∧ ∃ h : d.length = 8, s.acceptOperation dir d = s.startOperation dir ⟨d.toArray, h⟩) ∨
    (s.kv = true ∧ d.length ≠ 8 ∧ s.acceptOperation dir d = s.raiseError .invalidBlockSize) := by
  cases hk : s.kv with
  | false => exact .inl ⟨rfl, by simp [State.acceptOperation, hk]⟩
  | true =>
    by_cases h : d.length = 8
    · exact .inr (.inl ⟨rfl, h, by simp [State.acceptOperation, hk, h]⟩)
    · exact .inr (.inr ⟨rfl, h, by simp [State.acceptOperation, hk, h]⟩)

/-- The end of a ROUND step either ends the operation with its response or moves RC on. -/
theorem finishRound_cases (s : State) :
    (s.rc = lastRound s.dir ∧
      s.finishRound = ({ s with busy := false } : State).respond .ok (pack s.w).toList) ∨
    (s.rc ≠ lastRound s.dir ∧ s.finishRound = { s with rc := nextRound s.dir s.rc }) := by
  by_cases h : s.rc = lastRound s.dir
  · exact .inl ⟨h, by simp [State.finishRound, h]⟩
  · exact .inr ⟨h, by simp [State.finishRound, h]⟩

/-! ### Guarded operand reads -/

/-- The G unit runs exactly when the cursor is legal. -/
theorem withGOperands_next {s t : State} {c : BitVec 4} {f : Key → Cursor → State} :
    withGOperands s c f = .next t ↔ ∃ h : c.toNat < 10, t = f s.key ⟨c.toNat, h⟩ := by
  by_cases h : c.toNat < 10
  · simp [withGOperands, h, eq_comm]
  · simp [withGOperands, h]

/-- The G unit never refuses. -/
theorem withGOperands_not_refused {s : State} {c : BitVec 4} {f : Key → Cursor → State} {r : Refusal} :
    withGOperands s c f ≠ .refused r := by
  unfold withGOperands
  split <;> simp

theorem roundLegal_iff {r : BitVec 6} : roundLegal r = true ↔ 1 ≤ r.toNat ∧ r.toNat ≤ 32 := by
  simp [roundLegal]

/-- A round rule runs exactly in an operation with a legal round and a legal cursor. -/
theorem withRoundOperands_next {s t : State} {f : Key → BitVec 6 → Block → Cursor → State} :
    withRoundOperands s f = .next t ↔
      s.busy = true ∧ (1 ≤ s.rc.toNat ∧ s.rc.toNat ≤ 32) ∧
        ∃ h : s.cur.toNat < 10, t = f s.key s.rc s.w ⟨s.cur.toNat, h⟩ := by
  unfold withRoundOperands
  cases hb : s.busy with
  | false => simp
  | true =>
    cases hr : roundLegal s.rc with
    | false =>
      have : ¬(1 ≤ s.rc.toNat ∧ s.rc.toNat ≤ 32) := by rw [← roundLegal_iff, hr]; simp
      simp [this]
    | true => simp [withGOperands_next, roundLegal_iff.mp hr]

/-! ### Nothing writes the ROM (R12, R105): so every operation keeps its canonical form -/

@[simp] theorem loadKey_rom (s : State) (d : List Byte) : (s.loadKey d).rom = s.rom := by
  obtain ⟨_, h⟩ | ⟨_, h⟩ := loadKey_cases s d <;> simp [h]

@[simp] theorem acceptOperation_rom (s : State) (dir : Direction) (d : List Byte) :
    (s.acceptOperation dir d).rom = s.rom := by
  obtain ⟨_, h⟩ | ⟨_, _, h⟩ | ⟨_, _, h⟩ := acceptOperation_cases s dir d <;> simp [h]

@[simp] theorem finishRound_rom (s : State) : s.finishRound.rom = s.rom := by
  obtain ⟨_, h⟩ | ⟨_, h⟩ := finishRound_cases s <;> simp [h]

/-- Every operation on the ROM is a read, and each update of the state keeps the canonical form. -/
theorem updates_keep_wf (s : State) (h : s.rom.wf = true) (d : List Byte) (dir : Direction) :
    (s.loadKey d).rom.wf = true ∧ (s.acceptOperation dir d).rom.wf = true ∧
      s.finishRound.rom.wf = true ∧ s.afterReset.rom.wf = true := by
  simp [h]

/-! ### What the conditional updates leave alone -/

@[simp] theorem loadKey_pending (s : State) (d : List Byte) : (s.loadKey d).pending = s.pending := by
  obtain ⟨_, h⟩ | ⟨_, h⟩ := loadKey_cases s d <;> simp [h]

@[simp] theorem loadKey_sched (s : State) (d : List Byte) : (s.loadKey d).sched = s.sched := by
  obtain ⟨_, h⟩ | ⟨_, h⟩ := loadKey_cases s d <;> simp [h]

@[simp] theorem loadKey_w (s : State) (d : List Byte) : (s.loadKey d).w = s.w := by
  obtain ⟨_, h⟩ | ⟨_, h⟩ := loadKey_cases s d <;> simp [h]

@[simp] theorem loadKey_rc (s : State) (d : List Byte) : (s.loadKey d).rc = s.rc := by
  obtain ⟨_, h⟩ | ⟨_, h⟩ := loadKey_cases s d <;> simp [h]

@[simp] theorem loadKey_cur (s : State) (d : List Byte) : (s.loadKey d).cur = s.cur := by
  obtain ⟨_, h⟩ | ⟨_, h⟩ := loadKey_cases s d <;> simp [h]

@[simp] theorem loadKey_dir (s : State) (d : List Byte) : (s.loadKey d).dir = s.dir := by
  obtain ⟨_, h⟩ | ⟨_, h⟩ := loadKey_cases s d <;> simp [h]

@[simp] theorem loadKey_busy (s : State) (d : List Byte) : (s.loadKey d).busy = s.busy := by
  obtain ⟨_, h⟩ | ⟨_, h⟩ := loadKey_cases s d <;> simp [h]

@[simp] theorem loadKey_unitOut (s : State) (d : List Byte) : (s.loadKey d).unitOut = s.unitOut := by
  obtain ⟨_, h⟩ | ⟨_, h⟩ := loadKey_cases s d <;> simp [h]

@[simp] theorem acceptOperation_pending (s : State) (dir : Direction) (d : List Byte) :
    (s.acceptOperation dir d).pending = s.pending := by
  obtain ⟨_, h⟩ | ⟨_, _, h⟩ | ⟨_, _, h⟩ := acceptOperation_cases s dir d <;> simp [h]

@[simp] theorem acceptOperation_sched (s : State) (dir : Direction) (d : List Byte) :
    (s.acceptOperation dir d).sched = s.sched := by
  obtain ⟨_, h⟩ | ⟨_, _, h⟩ | ⟨_, _, h⟩ := acceptOperation_cases s dir d <;> simp [h]

@[simp] theorem acceptOperation_key (s : State) (dir : Direction) (d : List Byte) :
    (s.acceptOperation dir d).key = s.key := by
  obtain ⟨_, h⟩ | ⟨_, _, h⟩ | ⟨_, _, h⟩ := acceptOperation_cases s dir d <;> simp [h]

@[simp] theorem acceptOperation_kv (s : State) (dir : Direction) (d : List Byte) :
    (s.acceptOperation dir d).kv = s.kv := by
  obtain ⟨_, h⟩ | ⟨_, _, h⟩ | ⟨_, _, h⟩ := acceptOperation_cases s dir d <;> simp [h]

@[simp] theorem acceptOperation_unitOut (s : State) (dir : Direction) (d : List Byte) :
    (s.acceptOperation dir d).unitOut = s.unitOut := by
  obtain ⟨_, h⟩ | ⟨_, _, h⟩ | ⟨_, _, h⟩ := acceptOperation_cases s dir d <;> simp [h]

@[simp] theorem finishRound_pending (s : State) : s.finishRound.pending = s.pending := by
  obtain ⟨_, h⟩ | ⟨_, h⟩ := finishRound_cases s <;> simp [h]

@[simp] theorem finishRound_sched (s : State) : s.finishRound.sched = s.sched := by
  obtain ⟨_, h⟩ | ⟨_, h⟩ := finishRound_cases s <;> simp [h]

@[simp] theorem finishRound_key (s : State) : s.finishRound.key = s.key := by
  obtain ⟨_, h⟩ | ⟨_, h⟩ := finishRound_cases s <;> simp [h]

@[simp] theorem finishRound_kv (s : State) : s.finishRound.kv = s.kv := by
  obtain ⟨_, h⟩ | ⟨_, h⟩ := finishRound_cases s <;> simp [h]

@[simp] theorem finishRound_unitOut (s : State) : s.finishRound.unitOut = s.unitOut := by
  obtain ⟨_, h⟩ | ⟨_, h⟩ := finishRound_cases s <;> simp [h]

@[simp] theorem finishRound_w (s : State) : s.finishRound.w = s.w := by
  obtain ⟨_, h⟩ | ⟨_, h⟩ := finishRound_cases s <;> simp [h]

@[simp] theorem finishRound_cur (s : State) : s.finishRound.cur = s.cur := by
  obtain ⟨_, h⟩ | ⟨_, h⟩ := finishRound_cases s <;> simp [h]

@[simp] theorem finishRound_dir (s : State) : s.finishRound.dir = s.dir := by
  obtain ⟨_, h⟩ | ⟨_, h⟩ := finishRound_cases s <;> simp [h]

/-! ### Cursors -/

@[simp] theorem cursorBits_toNat (c : Cursor) : (cursorBits c).toNat = c.val := by
  have := c.isLt
  simp only [cursorBits, BitVec.toNat_ofNat]
  omega

@[simp] theorem cursorPrev_next (c : Cursor) : cursorPrev (cursorNext c) = c := by
  apply Fin.ext
  simp only [cursorPrev, cursorNext]
  omega

@[simp] theorem cursorNext_prev (c : Cursor) : cursorNext (cursorPrev c) = c := by
  apply Fin.ext
  simp only [cursorPrev, cursorNext]
  omega

/-! ### Bytes of a word -/

@[simp] theorem hiByte_concat (a b : Byte) : hiByte (byteConcat a b) = a := by
  ext i hi
  have h16 : 8 + i < 16 := by omega
  simp [hiByte, byteConcat, h16, hi]

@[simp] theorem loByte_concat (a b : Byte) : loByte (byteConcat a b) = b := by
  ext i hi
  have h16 : i < 16 := by omega
  simp [loByte, byteConcat, hi, h16]

@[simp] theorem concat_bytes (w : Word) : byteConcat (hiByte w) (loByte w) = w := by
  apply BitVec.eq_of_getLsbD_eq
  intro i hi
  by_cases h : i < 8
  · simp [hiByte, loByte, byteConcat, h, hi]
  · have h8 : 8 + (i - 8) = i := by omega
    have hlt : i - 8 < 8 := by omega
    simp [hiByte, loByte, byteConcat, h, h8, hlt, hi]

end Sys2Proof.Machine
end

