-- ==== Sys2Proof/Laws/Exec.lean ====
section
/-! SUPPORT. What an instruction can do, said once: when a round rule or the G unit runs, and the cases of a next state. -/

namespace Sys2Proof.Machine

/-- A round rule runs in a state that is ready for a round. -/
theorem withRoundOperands_ready {s : State} {c : Cursor} (h : s.RoundReady c)
    (f : Key → BitVec 6 → Block → Cursor → State) :
    withRoundOperands s f = .next (f s.key s.rc s.w c) := by
  have hc : s.cur.toNat < 10 := h.cursor ▸ c.isLt
  refine withRoundOperands_next.mpr ⟨h.busy, ⟨h.roundLow, h.roundHigh⟩, hc, ?_⟩
  congr 1
  exact Fin.ext h.cursor.symm

/-- A round rule that answers a next state was ready, and wrote what its function gives. -/
theorem ready_of_withRoundOperands {s t : State} {f : Key → BitVec 6 → Block → Cursor → State}
    (h : withRoundOperands s f = .next t) : ∃ c, s.RoundReady c ∧ t = f s.key s.rc s.w c := by
  obtain ⟨hb, ⟨hl, hh⟩, hc, rfl⟩ := withRoundOperands_next.mp h
  exact ⟨_, ⟨hb, hl, hh, rfl⟩, rfl⟩

@[simp] theorem gForward_cursor (rom : Memory) (k : Key) (w : Word) (c : Cursor) :
    (gForward rom k w c).2 = cursorNext (cursorNext (cursorNext (cursorNext c))) := rfl

@[simp] theorem gInverse_cursor (rom : Memory) (k : Key) (w : Word) (c : Cursor) :
    (gInverse rom k w c).2 = cursorPrev (cursorPrev (cursorPrev (cursorPrev c))) := rfl

/-! ### The meanings of the round rules and the G unit, over their shared operand reads -/

theorem exec_ruleA (s : State) :
    exec .ruleA s = withRoundOperands s fun k r b c => s.writeRound (ruleA s.rom k r b c) := rfl

theorem exec_ruleB (s : State) :
    exec .ruleB s = withRoundOperands s fun k r b c => s.writeRound (ruleB s.rom k r b c) := rfl

theorem exec_ruleAInv (s : State) :
    exec .ruleAInv s = withRoundOperands s fun k r b c => s.writeRound (ruleAInv s.rom k r b c) := rfl

theorem exec_ruleBInv (s : State) :
    exec .ruleBInv s = withRoundOperands s fun k r b c => s.writeRound (ruleBInv s.rom k r b c) := rfl

theorem exec_g (w : Word) (c : BitVec 4) (s : State) :
    exec (.g w c) s = withGOperands s c fun k c => s.returnWord (gForward s.rom k w c) := rfl

theorem exec_gInv (w : Word) (c : BitVec 4) (s : State) :
    exec (.gInv w c) s = withGOperands s c fun k c => s.returnWord (gInverse s.rom k w c) := rfl

/-- The cases of a next state: SETKEY, the start of an operation or its error, IllegalCommand, a forward or an inverse
round rule, a unit operation, READ_SR, RESET. -/
theorem exec_next_cases {i : Instr} {s t : State} (h : exec i s = .next t) :
    (∃ d, i = .setkey d ∧ t = s.loadKey d) ∨
    (∃ dir d, (i = .encrypt d ∨ i = .decrypt d) ∧ t = s.acceptOperation dir d) ∨
    t = s.raiseError .illegalCommand ∨
    (∃ b c, (i = .ruleA ∨ i = .ruleB) ∧ s.RoundReady c ∧
      t = s.writeRound (b, cursorNext (cursorNext (cursorNext (cursorNext c))))) ∨
    (∃ b c, (i = .ruleAInv ∨ i = .ruleBInv) ∧ s.RoundReady c ∧
      t = s.writeRound (b, cursorPrev (cursorPrev (cursorPrev (cursorPrev c))))) ∨
    (∃ u, t = { s with unitOut := some u }) ∨
    (i = .readSr ∧ t = s.deliver (.sr s.srView)) ∨
    (i = .reset ∧ t = s.afterReset) := by
  cases i with
  | setkey d => cases h; exact .inl ⟨d, rfl, rfl⟩
  | encrypt d => cases h; exact .inr (.inl ⟨_, d, .inl rfl, rfl⟩)
  | decrypt d => cases h; exact .inr (.inl ⟨_, d, .inr rfl, rfl⟩)
  | reserved00 d => cases h; exact .inr (.inr (.inl rfl))
  | reserved04 lo d => cases h; exact .inr (.inr (.inl rfl))
  | reserved08 lo d => cases h; exact .inr (.inr (.inl rfl))
  | reserved10 lo d => cases h; exact .inr (.inr (.inl rfl))
  | reserved20 lo d => cases h; exact .inr (.inr (.inl rfl))
  | reserved40 lo d => cases h; exact .inr (.inr (.inl rfl))
  | reserved80 lo d => cases h; exact .inr (.inr (.inl rfl))
  | ruleA =>
    rw [exec_ruleA] at h
    obtain ⟨c, hc, rfl⟩ := ready_of_withRoundOperands h
    exact .inr (.inr (.inr (.inl ⟨_, c, .inl rfl, hc, rfl⟩)))
  | ruleB =>
    rw [exec_ruleB] at h
    obtain ⟨c, hc, rfl⟩ := ready_of_withRoundOperands h
    exact .inr (.inr (.inr (.inl ⟨_, c, .inr rfl, hc, rfl⟩)))
  | ruleAInv =>
    rw [exec_ruleAInv] at h
    obtain ⟨c, hc, rfl⟩ := ready_of_withRoundOperands h
    exact .inr (.inr (.inr (.inr (.inl ⟨_, c, .inl rfl, hc, rfl⟩))))
  | ruleBInv =>
    rw [exec_ruleBInv] at h
    obtain ⟨c, hc, rfl⟩ := ready_of_withRoundOperands h
    exact .inr (.inr (.inr (.inr (.inl ⟨_, c, .inr rfl, hc, rfl⟩))))
  | g w c =>
    rw [exec_g] at h
    obtain ⟨_, rfl⟩ := withGOperands_next.mp h
    exact .inr (.inr (.inr (.inr (.inr (.inl ⟨_, rfl⟩)))))
  | gInv w c =>
    rw [exec_gInv] at h
    obtain ⟨_, rfl⟩ := withGOperands_next.mp h
    exact .inr (.inr (.inr (.inr (.inr (.inl ⟨_, rfl⟩)))))
  | romRead a => cases h; exact .inr (.inr (.inr (.inr (.inr (.inl ⟨_, rfl⟩)))))
  | readSr => cases h; exact .inr (.inr (.inr (.inr (.inr (.inr (.inl ⟨rfl, rfl⟩))))))
  | reset => cases h; exact .inr (.inr (.inr (.inr (.inr (.inr (.inr ⟨rfl, rfl⟩))))))

/-- No instruction writes the ROM or the schedule. -/
theorem exec_rom_sched {i : Instr} {s t : State} (h : exec i s = .next t) : t.rom = s.rom ∧ t.sched = s.sched := by
  obtain ⟨d, _, rfl⟩ | ⟨dir, d, _, rfl⟩ | rfl | ⟨b, c, _, _, rfl⟩ | ⟨b, c, _, _, rfl⟩ | ⟨u, rfl⟩ | ⟨_, rfl⟩ |
    ⟨_, rfl⟩ := exec_next_cases h <;> simp

end Sys2Proof.Machine
end

