-- ==== Sys2Proof/Laws/PerInstr.lean ====
section
/-! SUPPORT. The family EncodeMatchesRow: the encoding of every instruction carries the bits its row of
spec/opcode_table.json fixes (its match under its mask), one lemma per constructor. -/

namespace Sys2Proof.Laws

/-- A HOSTCMD's word under a row's mask is the row's match. -/
def cmdMatches (m v : BitVec 16) : Encoded → Prop
  | .hostCmd c => c.cmd &&& m = v
  | _ => False

/-- The low byte of a command word is OP, whatever LEN is. -/
theorem cmd_under_mask (n op m : Byte) :
    byteConcat n op &&& m.setWidth 16 = (op &&& m).setWidth 16 := by
  ext i hi
  by_cases h : i < 8
  · simp [byteConcat, h]
  · have : m.getLsbD i = false := BitVec.getLsbD_of_ge m i (by omega)
    simp [byteConcat, h, this]

end Sys2Proof.Laws

namespace Sys2Proof.Laws.EncodeMatchesRow

/-- The row of spec/opcode_table.json, constructor by constructor: match and mask. -/
def Statement : Instr → Prop
  | .setkey d => cmdMatches 0x00FF#16 0x0001#16 (encode (.setkey d))
  | .encrypt d => cmdMatches 0x00FF#16 0x0002#16 (encode (.encrypt d))
  | .decrypt d => cmdMatches 0x00FF#16 0x0003#16 (encode (.decrypt d))
  | .reserved00 d => cmdMatches 0x00FF#16 0x0000#16 (encode (.reserved00 d))
  | .reserved04 lo d => cmdMatches 0x00FC#16 0x0004#16 (encode (.reserved04 lo d))
  | .reserved08 lo d => cmdMatches 0x00F8#16 0x0008#16 (encode (.reserved08 lo d))
  | .reserved10 lo d => cmdMatches 0x00F0#16 0x0010#16 (encode (.reserved10 lo d))
  | .reserved20 lo d => cmdMatches 0x00E0#16 0x0020#16 (encode (.reserved20 lo d))
  | .reserved40 lo d => cmdMatches 0x00C0#16 0x0040#16 (encode (.reserved40 lo d))
  | .reserved80 lo d => cmdMatches 0x0080#16 0x0080#16 (encode (.reserved80 lo d))
  | .ruleA => encode .ruleA = .roundOp 0b00#2
  | .ruleB => encode .ruleB = .roundOp 0b01#2
  | .ruleAInv => encode .ruleAInv = .roundOp 0b10#2
  | .ruleBInv => encode .ruleBInv = .roundOp 0b11#2
  | .g w c => encode (.g w c) = .unitOp (.gOp 0b0#1 w c)
  | .gInv w c => encode (.gInv w c) = .unitOp (.gOp 0b1#1 w c)
  | .romRead a => encode (.romRead a) = .unitOp (.romRd a)
  | .readSr => encode .readSr = .port .readSr
  | .reset => encode .reset = .port .reset

theorem setkey (d : List Byte) : Statement (.setkey d) := cmd_under_mask _ 0x01#8 0xFF#8
theorem encrypt (d : List Byte) : Statement (.encrypt d) := cmd_under_mask _ 0x02#8 0xFF#8
theorem decrypt (d : List Byte) : Statement (.decrypt d) := cmd_under_mask _ 0x03#8 0xFF#8
theorem reserved00 (d : List Byte) : Statement (.reserved00 d) := cmd_under_mask _ 0x00#8 0xFF#8

theorem reserved04 (lo : BitVec 2) (d : List Byte) : Statement (.reserved04 lo d) :=
  (cmd_under_mask _ (0b000001#6 ++ lo) 0xFC#8).trans (by revert lo; decide)

theorem reserved08 (lo : BitVec 3) (d : List Byte) : Statement (.reserved08 lo d) :=
  (cmd_under_mask _ (0b00001#5 ++ lo) 0xF8#8).trans (by revert lo; decide)

theorem reserved10 (lo : BitVec 4) (d : List Byte) : Statement (.reserved10 lo d) :=
  (cmd_under_mask _ (0b0001#4 ++ lo) 0xF0#8).trans (by revert lo; decide)

theorem reserved20 (lo : BitVec 5) (d : List Byte) : Statement (.reserved20 lo d) :=
  (cmd_under_mask _ (0b001#3 ++ lo) 0xE0#8).trans (by revert lo; decide)

theorem reserved40 (lo : BitVec 6) (d : List Byte) : Statement (.reserved40 lo d) :=
  (cmd_under_mask _ (0b01#2 ++ lo) 0xC0#8).trans (by revert lo; decide)

theorem reserved80 (lo : BitVec 7) (d : List Byte) : Statement (.reserved80 lo d) :=
  (cmd_under_mask _ (0b1#1 ++ lo) 0x80#8).trans (by revert lo; decide)

theorem ruleA : Statement .ruleA := rfl
theorem ruleB : Statement .ruleB := rfl
theorem ruleAInv : Statement .ruleAInv := rfl
theorem ruleBInv : Statement .ruleBInv := rfl
theorem g (w : Word) (c : BitVec 4) : Statement (.g w c) := rfl
theorem gInv (w : Word) (c : BitVec 4) : Statement (.gInv w c) := rfl
theorem romRead (a : Byte) : Statement (.romRead a) := rfl
theorem readSr : Statement .readSr := rfl
theorem reset : Statement .reset := rfl

end Sys2Proof.Laws.EncodeMatchesRow
end

