-- ==== Sys2Proof/Laws/Step.lean ====
section
/-! SUPPORT. What a step and a run of steps can do, said once. -/

namespace Sys2Proof.Machine

/-- When it is the core's turn, the step is the core's. -/
theorem turn_of_coreMoves {s t : State} (h : CoreMoves s t) : s.turn = t.coreTurn := by
  cases h with
  | noEvent h => simp [State.turn, h]
  | given es h => simp [State.turn, h]
  | waiting c c' es h hp => simp [State.turn, h, hp]

/-- The cases of a turn: the core moves, the host submits, or the head of the schedule is a port or unit operation. -/
theorem turn_cases (s : State) :
    (∃ t, CoreMoves s t ∧ s.turn = t.coreTurn) ∨
    (∃ c es, s.sched = .submit c :: es ∧ s.pending = none ∧
      s.turn = .submitted { s with pending := some c, sched := es }) ∨
    (∃ p es, s.sched = .port p :: es ∧ s.turn = .run (.port p) { s with sched := es }) ∨
    (∃ u es, s.sched = .unitOp u :: es ∧ s.turn = .run (.unitOp u) { s with sched := es }) := by
  match h : s.sched with
  | [] => exact .inl ⟨s, .noEvent h, turn_of_coreMoves (.noEvent h)⟩
  | .core :: es => exact .inl ⟨_, .given es h, turn_of_coreMoves (.given es h)⟩
  | .port p :: es => exact .inr (.inr (.inl ⟨p, es, rfl, by simp [State.turn, h]⟩))
  | .unitOp u :: es => exact .inr (.inr (.inr ⟨u, es, rfl, by simp [State.turn, h]⟩))
  | .submit c :: es =>
    match hp : s.pending with
    | none => exact .inr (.inl ⟨c, es, rfl, rfl, by simp [State.turn, h, hp]⟩)
    | some c' => exact .inl ⟨s, .waiting c c' es h hp, turn_of_coreMoves (.waiting c c' es h hp)⟩

/-- The core's turn while BUSY = 1 is a ROUND step. -/
theorem coreTurn_busy {s : State} (h : s.busy = true) :
    s.coreTurn = .run (.roundOp (roundSelect s.dir s.rc)) s := by
  simp [State.coreTurn, h]

/-- The core's turn in an idle core with a command pending is its ACCEPT step. -/
theorem coreTurn_accept {s : State} {c : HostCmd} (h : s.busy = false) (hp : s.pending = some c) :
    s.coreTurn = .run (.hostCmd c) { s with pending := none } := by
  simp [State.coreTurn, h, hp]

/-- The core's turn in an idle core with nothing pending changes nothing. -/
theorem coreTurn_idle {s : State} (h : s.busy = false) (hp : s.pending = none) : s.coreTurn = .idle s := by
  simp [State.coreTurn, h, hp]

/-- A form that decodes is run as its instruction. -/
theorem runEncoded_ok {e : Encoded} {i : Instr} {t : State} (h : decode e = .ok i) :
    runEncoded e t = afterExec e (exec i t) := by
  simp [runEncoded, h]

/-- The core's turn takes at most its own event off the schedule, and changes nothing else. -/
theorem coreMoves_eq {s t : State} (h : CoreMoves s t) :
    ∃ es, t = { s with sched := es } ∧ (es = s.sched ∨ s.sched = .core :: es) := by
  cases h with
  | noEvent h => exact ⟨s.sched, rfl, .inl rfl⟩
  | given es h => exact ⟨es, rfl, .inr h⟩
  | waiting c c' es h hp => exact ⟨s.sched, rfl, .inl rfl⟩

/-- A command is SETKEY, ENCRYPT, DECRYPT or reserved by its OP alone, and always answers a next state. -/
theorem exec_decodeOp (op : Byte) (d : List Byte) (s : State) :
    (op = 0x01#8 ∧ exec (decodeOp op d) s = .next (s.loadKey d)) ∨
    (op = 0x02#8 ∧ exec (decodeOp op d) s = .next (s.acceptOperation .encrypt d)) ∨
    (op = 0x03#8 ∧ exec (decodeOp op d) s = .next (s.acceptOperation .decrypt d)) ∨
    ((op ≠ 0x01#8 ∧ op ≠ 0x02#8 ∧ op ≠ 0x03#8) ∧
      exec (decodeOp op d) s = .next (s.raiseError .illegalCommand)) := by
  by_cases h1 : op = 0x01#8
  · subst h1; exact .inl ⟨rfl, rfl⟩
  by_cases h2 : op = 0x02#8
  · subst h2; exact .inr (.inl ⟨rfl, rfl⟩)
  by_cases h3 : op = 0x03#8
  · subst h3; exact .inr (.inr (.inl ⟨rfl, rfl⟩))
  refine .inr (.inr (.inr ⟨⟨h1, h2, h3⟩, ?_⟩))
  simp only [decodeOp, h1, h2, h3, if_false]
  repeat' split
  all_goals rfl

/-- The cases of a step that answers a next state: a submission, READ_SR, RESET, a unit operation, an idle turn, an ACCEPT
step, a ROUND step. -/
theorem step_next_cases {s t : State} (h : step s = .next t) :
    (∃ c es, s.sched = .submit c :: es ∧ s.pending = none ∧ t = { s with pending := some c, sched := es }) ∨
    (∃ es, s.sched = .port .readSr :: es ∧ t = ({ s with sched := es } : State).deliver (.sr s.srView)) ∨
    (∃ es, s.sched = .port .reset :: es ∧ t = ({ s with sched := es } : State).afterReset) ∨
    (∃ u es o, s.sched = .unitOp u :: es ∧ t = { s with sched := es, unitOut := some o }) ∨
    (CoreMoves s t ∧ t.busy = false ∧ t.pending = none) ∨
    (∃ u c, CoreMoves s u ∧ u.busy = false ∧ u.pending = some c ∧ c.agrees = true ∧
      exec (decodeOp c.op c.data) { u with pending := none } = .next t) ∨
    (∃ u v, CoreMoves s u ∧ u.busy = true ∧
      exec (decodeRoundOp (roundSelect u.dir u.rc)) u = .next v ∧ t = v.finishRound) := by
  rw [step, stepTurn] at h
  obtain ⟨u, hu, ht⟩ | ⟨c, es, hs, hp, ht⟩ | ⟨p, es, hs, ht⟩ | ⟨u, es, hs, ht⟩ := turn_cases s
  · rw [ht] at h
    cases hb : u.busy with
    | true =>
      rw [coreTurn_busy hb] at h
      simp only [runEncoded, decode] at h
      cases hv : exec (decodeRoundOp (roundSelect u.dir u.rc)) u with
      | next v =>
        rw [hv] at h
        cases h
        exact .inr (.inr (.inr (.inr (.inr (.inr ⟨u, v, hu, hb, hv, rfl⟩)))))
      | fault f => rw [hv] at h; cases h
      | refused r => rw [hv] at h; cases h
    | false =>
      cases hp : u.pending with
      | none =>
        rw [coreTurn_idle hb hp] at h
        cases h
        exact .inr (.inr (.inr (.inr (.inl ⟨hu, hb, hp⟩))))
      | some c =>
        rw [coreTurn_accept hb hp] at h
        simp only [runEncoded, decode, decodeHostCmd] at h
        cases hc : c.agrees with
        | false => simp [hc] at h
        | true =>
          simp only [hc, if_true, afterExec] at h
          exact .inr (.inr (.inr (.inr (.inr (.inl ⟨u, c, hu, hb, hp, hc, h⟩)))))
  · rw [ht] at h
    cases h
    exact .inl ⟨c, es, hs, hp, rfl⟩
  · rw [ht] at h
    cases p with
    | readSr => cases h; exact .inr (.inl ⟨es, hs, rfl⟩)
    | reset => cases h; exact .inr (.inr (.inl ⟨es, hs, rfl⟩))
  · rw [ht] at h
    refine .inr (.inr (.inr (.inl ?_)))
    simp only [runEncoded, decode] at h
    cases u with
    | romRd a => cases h; exact ⟨_, es, _, hs, rfl⟩
    | gOp gd w c =>
      cases hc : cursorLegal c with
      | false => simp [decodeUnitOp, hc] at h
      | true =>
        simp only [decodeUnitOp, hc, if_true] at h
        by_cases hg : gd = 0#1
        · simp only [hg, if_true, afterExec, exec_g] at h
          obtain ⟨_, rfl⟩ := withGOperands_next.mp h
          exact ⟨_, es, _, hs, rfl⟩
        · simp only [hg, if_false, afterExec, exec_gInv] at h
          obtain ⟨_, rfl⟩ := withGOperands_next.mp h
          exact ⟨_, es, _, hs, rfl⟩

/-- The rule the sequencer selects for each round (R145), as the transaction level's rounds choose it. -/
theorem selected_rule : ∀ r : BitVec 6, 1 ≤ r.toNat → r.toNat ≤ 32 →
    if (1 ≤ r.toNat ∧ r.toNat ≤ 8) ∨ (17 ≤ r.toNat ∧ r.toNat ≤ 24) then
      decodeRoundOp (roundSelect .encrypt r) = .ruleA ∧ decodeRoundOp (roundSelect .decrypt r) = .ruleAInv
    else decodeRoundOp (roundSelect .encrypt r) = .ruleB ∧ decodeRoundOp (roundSelect .decrypt r) = .ruleBInv := by
  decide +kernel

/-- In a state ready for a round the selected rule completes, and writes what the transaction level's round gives. -/
theorem exec_selected_rule {s : State} {c : Cursor} (h : s.RoundReady c) :
    exec (decodeRoundOp (roundSelect s.dir s.rc)) s = .next (s.writeRound
      (match s.dir with
        | .encrypt => encRound s.rom s.key s.rc.toNat (s.w, c)
        | .decrypt => decRound s.rom s.key s.rc.toNat (s.w, c))) := by
  have sel := selected_rule s.rc h.roundLow h.roundHigh
  have hrc : BitVec.ofNat 6 s.rc.toNat = s.rc := by simp
  split at sel <;> rename_i hp <;> cases hd : s.dir
  · rw [sel.1, exec_ruleA, withRoundOperands_ready h]
    simp only [encRound, if_pos hp, hrc]
  · rw [sel.2, exec_ruleAInv, withRoundOperands_ready h]
    simp only [decRound, if_pos hp, hrc]
  · rw [sel.1, exec_ruleB, withRoundOperands_ready h]
    simp only [encRound, if_neg hp, hrc]
  · rw [sel.2, exec_ruleBInv, withRoundOperands_ready h]
    simp only [decRound, if_neg hp, hrc]

/-! ### Runs of several steps -/

@[simp] theorem runSteps_zero (s : State) : runSteps 0 s = .next s := rfl

/-- A run is its first step and the run after it. -/
theorem runSteps_succ (n : Nat) (s : State) :
    runSteps (n + 1) s = match step s with
      | .next t => runSteps n t
      | .fault f => .fault f
      | .refused r => .refused r := by
  simp only [runSteps, Host.Core.run]
  split <;> rename_i r h <;> (have h' := show step s = _ from h) <;> rw [h'] <;> rfl

/-- A step that completes is the start of a longer run. -/
theorem runSteps_of_step {s t : State} (n : Nat) (h : step s = .next t) : runSteps (n + 1) s = runSteps n t := by
  rw [runSteps_succ, h]

/-- Two runs one after the other. -/
theorem runSteps_add {m : Nat} {s t : State} (n : Nat) (h : runSteps m s = .next t) :
    runSteps (m + n) s = runSteps n t := by
  induction m generalizing s with
  | zero => cases h; rw [Nat.zero_add]
  | succ m ih =>
    rw [Nat.add_right_comm, runSteps_succ]
    rw [runSteps_succ] at h
    cases hs : step s with
    | next u => rw [hs] at h; exact ih h
    | fault f => rw [hs] at h; cases h
    | refused r => rw [hs] at h; cases h

end Sys2Proof.Machine
end

