-- ==== Sys2Proof/Tests/Slice0.lean ====
section
/-! SUPPORT. Tests of the model. Words are written out from spec/30_encoding.md R71 to R76; expected results are those of
spec/95_test_vectors.md (the section is named) or of the rule named. At the end, for every statement with hypotheses, a
concrete state and operands that meet them. -/

namespace Sys2Proof.Tests

open Sys2Proof Sys2Proof.Machine Host

/-! ### Values the tests use -/

/-- The primary key of 95_test_vectors.md 1.1. -/
def primaryKey : Key := #v[0x00#8, 0x99#8, 0x88#8, 0x77#8, 0x66#8, 0x55#8, 0x44#8, 0x33#8, 0x22#8, 0x11#8]

/-- The primary plaintext of 95_test_vectors.md 1.1. -/
def primaryPlain : BlockBytes := #v[0x33#8, 0x22#8, 0x11#8, 0x00#8, 0xDD#8, 0xCC#8, 0xBB#8, 0xAA#8]

/-- The primary ciphertext of 95_test_vectors.md 1.1. -/
def primaryCipher : BlockBytes := #v[0x25#8, 0x87#8, 0xCA#8, 0xE2#8, 0x7A#8, 0x12#8, 0xD3#8, 0x00#8]

/-- An idle core under the primary key. -/
def keyed : State := { State.reset with key := primaryKey, kv := true }

/-- An operation in progress under the primary key. -/
def running (dir : Direction) (rc : BitVec 6) (w : Block) (cur : BitVec 4) : State :=
  { keyed with busy := true, dir := dir, rc := rc, w := w, cur := cur }

/-- An operation in progress with all four words zero. -/
def runningZero (dir : Direction) (rc : BitVec 6) (cur : BitVec 4) : State := running dir rc ⟨0#16, 0#16, 0#16, 0#16⟩ cur

/-- What an outcome shows, if it is a next state and `f` of it is `a`. -/
def gives {α : Type} [DecidableEq α] (o : Outcome State Fault Refusal) (f : State → α) (a : α) : Bool :=
  match o with
  | .next t => decide (f t = a)
  | _ => false

/-- The outcome is this fault. -/
def faultsWith (o : Outcome State Fault Refusal) (f : Fault) : Bool :=
  match o with
  | .fault g => decide (g = f)
  | _ => false

/-- The outcome is a next state. -/
def goesOn (o : Outcome State Fault Refusal) : Bool :=
  match o with
  | .next _ => true
  | _ => false

/-- The last thing delivered to the host. -/
def lastOut (s : State) : Option PortOut := s.outbox.getLast?

/-- A command as the host submits it: LEN is the number of bytes. -/
def command (op : Byte) (d : List Byte) : HostCmd := ⟨byteConcat (BitVec.ofNat 8 d.length) op, d⟩

/-! ### WellFormed refuses an ill-formed term, check by check -/

theorem test_wf_refuses_256_bytes : (Instr.setkey (List.replicate 256 0#8)).wellFormed = false ∧
    (Instr.encrypt (List.replicate 256 0#8)).wellFormed = false ∧
    (Instr.decrypt (List.replicate 256 0#8)).wellFormed = false := by decide +kernel

theorem test_wf_refuses_256_reserved_bytes : (Instr.reserved00 (List.replicate 256 0#8)).wellFormed = false ∧
    (Instr.reserved04 0#2 (List.replicate 256 0#8)).wellFormed = false ∧
    (Instr.reserved08 0#3 (List.replicate 256 0#8)).wellFormed = false ∧
    (Instr.reserved10 0#4 (List.replicate 256 0#8)).wellFormed = false ∧
    (Instr.reserved20 0#5 (List.replicate 256 0#8)).wellFormed = false ∧
    (Instr.reserved40 0#6 (List.replicate 256 0#8)).wellFormed = false ∧
    (Instr.reserved80 0#7 (List.replicate 256 0#8)).wellFormed = false := by decide +kernel

theorem test_wf_refuses_cursor_10 : (Instr.g 0#16 10#4).wellFormed = false ∧ (Instr.gInv 0#16 15#4).wellFormed = false := by
  decide

theorem test_wf_accepts_wrong_sizes : (Instr.setkey []).wellFormed = true ∧
    (Instr.encrypt (List.replicate 255 0#8)).wellFormed = true ∧ (Instr.g 0#16 9#4).wellFormed = true := by decide +kernel

/-! ### Decoding, one word per constructor -/

/-- R76: OP 0x01, LEN 2. -/
theorem test_decode_setkey : decode (.hostCmd ⟨0b0000001000000001#16, [0xAB#8, 0xCD#8]⟩) = .ok (.setkey [0xAB#8, 0xCD#8]) := by decide

/-- R76: OP 0x02, LEN 1. -/
theorem test_decode_encrypt : decode (.hostCmd ⟨0b0000000100000010#16, [0x80#8]⟩) = .ok (.encrypt [0x80#8]) := by decide

/-- R76: OP 0x03, LEN 1. -/
theorem test_decode_decrypt : decode (.hostCmd ⟨0b0000000100000011#16, [0x7F#8]⟩) = .ok (.decrypt [0x7F#8]) := by decide

/-- R77: OP 0x00. -/
theorem test_decode_reserved00 : decode (.hostCmd ⟨0b0000000000000000#16, []⟩) = .ok (.reserved00 []) := by decide

/-- R77: OP 0x06. -/
theorem test_decode_reserved04 : decode (.hostCmd ⟨0b0000000000000110#16, []⟩) = .ok (.reserved04 0b10#2 []) := by decide

/-- R77: OP 0x0D, LEN 1. -/
theorem test_decode_reserved08 : decode (.hostCmd ⟨0b0000000100001101#16, [0x55#8]⟩) = .ok (.reserved08 0b101#3 [0x55#8]) := by decide

/-- R77: OP 0x1B. -/
theorem test_decode_reserved10 : decode (.hostCmd ⟨0b0000000000011011#16, []⟩) = .ok (.reserved10 0b1011#4 []) := by decide

/-- R77: OP 0x2D. -/
theorem test_decode_reserved20 : decode (.hostCmd ⟨0b0000000000101101#16, []⟩) = .ok (.reserved20 0b01101#5 []) := by decide

/-- R77: OP 0x72. -/
theorem test_decode_reserved40 : decode (.hostCmd ⟨0b0000000001110010#16, []⟩) = .ok (.reserved40 0b110010#6 []) := by decide

/-- R77: OP 0xA5. -/
theorem test_decode_reserved80 : decode (.hostCmd ⟨0b0000000010100101#16, []⟩) = .ok (.reserved80 0b0100101#7 []) := by decide

/-- R74. -/
theorem test_decode_ruleA : decode (.roundOp 0b00#2) = .ok .ruleA := by decide

/-- R74. -/
theorem test_decode_ruleB : decode (.roundOp 0b01#2) = .ok .ruleB := by decide

/-- R74. -/
theorem test_decode_ruleAInv : decode (.roundOp 0b10#2) = .ok .ruleAInv := by decide

/-- R74. -/
theorem test_decode_ruleBInv : decode (.roundOp 0b11#2) = .ok .ruleBInv := by decide

/-- R75. -/
theorem test_decode_g : decode (.unitOp (.gOp 0b0#1 0x3322#16 9#4)) = .ok (.g 0x3322#16 9#4) := by decide

/-- R75. -/
theorem test_decode_gInv : decode (.unitOp (.gOp 0b1#1 0x0BAF#16 4#4)) = .ok (.gInv 0x0BAF#16 4#4) := by decide

/-- R75. -/
theorem test_decode_romRead : decode (.unitOp (.romRd 0b11111111#8)) = .ok (.romRead 0xFF#8) := by decide

/-- R73. -/
theorem test_decode_readSr : decode (.port .readSr) = .ok .readSr := by decide

/-- R73. -/
theorem test_decode_reset : decode (.port .reset) = .ok .reset := by decide

/-- R71: LEN and the delivered bytes must agree, in both directions. -/
theorem test_decode_refuses_length : decode (.hostCmd ⟨0x0A01#16, []⟩) = .error .lengthDisagrees ∧
    decode (.hostCmd ⟨0x0001#16, [0#8]⟩) = .error .lengthDisagrees := by decide

/-- R120, R121: the cursor operand is in 0..9. -/
theorem test_decode_refuses_cursor : decode (.unitOp (.gOp 0#1 0#16 10#4)) = .error .cursorOutOfRange ∧
    decode (.unitOp (.gOp 1#1 0#16 15#4)) = .error .cursorOutOfRange := by decide

/-- R76: the edges of the reserved rows. -/
theorem test_decode_reserved_edges : decodeOp 0x03#8 [] = .decrypt [] ∧ decodeOp 0x04#8 [] = .reserved04 0#2 [] ∧
    decodeOp 0x07#8 [] = .reserved04 3#2 [] ∧ decodeOp 0x0F#8 [] = .reserved08 7#3 [] ∧
    decodeOp 0x1F#8 [] = .reserved10 15#4 [] ∧ decodeOp 0x3F#8 [] = .reserved20 31#5 [] ∧
    decodeOp 0x7F#8 [] = .reserved40 63#6 [] ∧ decodeOp 0xFF#8 [] = .reserved80 127#7 [] := by decide

/-- The table's numbering, one word for each format. -/
theorem test_decode_table_words : decodeTableWord 16 0x0001 = some (.setkey []) ∧
    decodeTableWord 16 0x0203 = some (.decrypt [0#8, 0#8]) ∧ decodeTableWord 16 0x0080 = some (.reserved80 0#7 []) ∧
    decodeTableWord 8 0b10 = some .ruleAInv ∧ decodeTableWord 8 0x3A = some (.romRead 0x3A#8) ∧
    decodeTableWord 1 1 = some (.gInv 0#16 0#4) := by decide

/-! ### What the next step does with a placed word -/

/-- SETKEY with no bytes, as the first instruction after reset (95_test_vectors.md 3.2, line 3). -/
theorem test_place_setkey :
    gives (step (State.reset.withFetchWord 16 0x0001)) lastOut (some (.response ⟨0x01#8, []⟩)) = true := by decide

/-- ENCRYPT as the first instruction after reset answers NoKey (95_test_vectors.md 2.8). -/
theorem test_place_encrypt :
    gives (step (State.reset.withFetchWord 16 0x0802)) lastOut (some (.response ⟨0x03#8, []⟩)) = true := by decide +kernel

/-- The four round selects: each placed word runs, and moves CUR as R123 says. -/
theorem test_place_rules : gives (step (State.reset.withFetchWord 8 0)) (·.cur) 4#4 = true ∧
    gives (step (State.reset.withFetchWord 8 1)) (·.cur) 6#4 = true ∧
    gives (step (State.reset.withFetchWord 8 2)) (·.cur) 2#4 = true ∧
    gives (step (State.reset.withFetchWord 8 3)) (·.cur) 4#4 = true := by decide +kernel

/-- G under the zero key of a placed word (95_test_vectors.md 2.2). -/
theorem test_place_g :
    gives (step (State.reset.withFetchWord 1 0)) (·.unitOut) (some (.word 0x4A36#16 4#4)) = true := by decide +kernel

/-- The inverse of G under the zero key, cursor 0: the key bytes are all alike, so 95_test_vectors.md 2.2's value for
cursor 4 is the value for cursor 0, with the cursor at 6. -/
theorem test_place_gInv :
    gives (step (State.reset.withFetchWord 1 1)) (·.unitOut) (some (.word 0x364A#16 6#4)) = true := by decide +kernel

/-- FROM(0x3A) (R101). -/
theorem test_place_rom :
    gives (step (State.reset.withFetchWord 8 0x3A)) (·.unitOut) (some (.byte 0xE5#8)) = true := by decide +kernel

/-- READ_SR and RESET placed as port operations (R180, R230). -/
theorem test_place_port : gives (step (keyed.place (.port .readSr))) lastOut (some (.sr 0x02#8)) = true ∧
    gives (step (keyed.place (.port .reset))) (·.kv) false = true := by decide

/-! ### One step per instruction -/

/-- R172's example. -/
theorem test_setkey_loads : gives (exec (.setkey primaryKey.toList) State.reset)
    (fun t => (t.key[0], t.key[9], t.kv, lastOut t)) (0x00#8, 0x11#8, true, some (.response ⟨0x00#8, []⟩)) = true := by
  decide

/-- 95_test_vectors.md 2.8: eleven bytes; the old key stays. -/
theorem test_setkey_eleven_bytes : gives (exec (.setkey (List.replicate 11 0xFF#8)) keyed)
    (fun t => (t.key, t.kv, lastOut t)) (primaryKey, true, some (.response ⟨0x01#8, []⟩)) = true := by decide

/-- 95_test_vectors.md 3.3, line 3: BUSY 1, RC 1, CUR 0, DIR 0; the words of 2.4. -/
theorem test_encrypt_starts : gives (exec (.encrypt primaryPlain.toList) keyed)
    (fun t => (t.w, t.rc, t.cur, t.dir, t.busy))
    (⟨0x3322#16, 0x1100#16, 0xDDCC#16, 0xBBAA#16⟩, 1#6, 0#4, .encrypt, true) = true := by decide

/-- 95_test_vectors.md 2.8: NoKey takes precedence over the size. -/
theorem test_encrypt_no_key_first : gives (exec (.encrypt (List.replicate 5 0#8)) State.reset) lastOut
    (some (.response ⟨0x03#8, []⟩)) = true := by decide

/-- 95_test_vectors.md 2.4: after ACCEPT of DECRYPT. -/
theorem test_decrypt_starts : gives (exec (.decrypt primaryCipher.toList) keyed)
    (fun t => (t.w, t.rc, t.cur, t.dir, t.busy))
    (⟨0x2587#16, 0xCAE2#16, 0x7A12#16, 0xD300#16⟩, 32#6, 8#4, .decrypt, true) = true := by decide

/-- 95_test_vectors.md 2.8: nine bytes. -/
theorem test_decrypt_nine_bytes : gives (exec (.decrypt (List.replicate 9 0#8)) keyed)
    (fun t => (t.busy, lastOut t)) (false, some (.response ⟨0x02#8, []⟩)) = true := by decide

/-- R179: IllegalCommand, and the key stays. -/
theorem test_reserved00_illegal : gives (exec (.reserved00 []) keyed) (fun t => (t.key, t.kv, t.busy, t.outbox))
    (primaryKey, true, false, [.response ⟨0x04#8, []⟩]) = true := by decide

/-- R179: IllegalCommand, and the key stays. -/
theorem test_reserved04_illegal : gives (exec (.reserved04 0#2 []) keyed) (fun t => (t.key, t.kv, t.busy, t.outbox))
    (primaryKey, true, false, [.response ⟨0x04#8, []⟩]) = true := by decide

/-- R179: IllegalCommand, and the key stays. -/
theorem test_reserved08_illegal : gives (exec (.reserved08 7#3 [0#8]) keyed) (fun t => (t.key, t.kv, t.busy, t.outbox))
    (primaryKey, true, false, [.response ⟨0x04#8, []⟩]) = true := by decide

/-- R179: IllegalCommand, and the key stays. -/
theorem test_reserved10_illegal : gives (exec (.reserved10 9#4 []) keyed) (fun t => (t.key, t.kv, t.busy, t.outbox))
    (primaryKey, true, false, [.response ⟨0x04#8, []⟩]) = true := by decide

/-- R179: IllegalCommand, and the key stays. -/
theorem test_reserved20_illegal : gives (exec (.reserved20 3#5 []) keyed) (fun t => (t.key, t.kv, t.busy, t.outbox))
    (primaryKey, true, false, [.response ⟨0x04#8, []⟩]) = true := by decide

/-- R179: IllegalCommand, and the key stays. -/
theorem test_reserved40_illegal : gives (exec (.reserved40 5#6 []) keyed) (fun t => (t.key, t.kv, t.busy, t.outbox))
    (primaryKey, true, false, [.response ⟨0x04#8, []⟩]) = true := by decide

/-- R179: IllegalCommand, and the key stays. -/
theorem test_reserved80_illegal : gives (exec (.reserved80 127#7 (List.replicate 8 0#8)) keyed) (fun t => (t.key, t.kv, t.busy, t.outbox))
    (primaryKey, true, false, [.response ⟨0x04#8, []⟩]) = true := by decide

/-- 95_test_vectors.md 2.3, RULE_A at round 1: the words and the cursor, and RC as it was. -/
theorem test_ruleA_round_1 : gives (exec .ruleA (running .encrypt 1#6 ⟨0x3322#16, 0x1100#16, 0xDDCC#16, 0xBBAA#16⟩ 0#4))
    (fun t => (t.w, t.cur, t.rc)) (⟨0xB004#16, 0x0BAF#16, 0x1100#16, 0xDDCC#16⟩, 4#4, 1#6) = true := by decide +kernel

/-- 95_test_vectors.md 2.3, RULE_A at round 24: the words and the cursor, and RC as it was. -/
theorem test_ruleA_round_24 : gives (exec .ruleA (running .encrypt 24#6 ⟨0x6F7F#16, 0x1115#16, 0x45C0#16, 0xBB15#16⟩ 2#4))
    (fun t => (t.w, t.cur, t.rc)) (⟨0x65A7#16, 0xDEAA#16, 0x1115#16, 0x45C0#16⟩, 6#4, 24#6) = true := by decide +kernel

/-- 95_test_vectors.md 2.3, RULE_B at round 9: the words and the cursor, and RC as it was. -/
theorem test_ruleB_round_9 : gives (exec .ruleB (running .encrypt 9#6 ⟨0xD79B#16, 0x5599#16, 0xBE50#16, 0xDD90#16⟩ 2#4))
    (fun t => (t.w, t.cur, t.rc)) (⟨0xDD90#16, 0x1E0B#16, 0x820B#16, 0xBE50#16⟩, 6#4, 9#6) = true := by decide +kernel

/-- 95_test_vectors.md 2.3, RULE_B at round 32: the words and the cursor, and RC as it was. -/
theorem test_ruleB_round_32 : gives (exec .ruleB (running .encrypt 32#6 ⟨0x1ADC#16, 0x60EE#16, 0xD300#16, 0x2587#16⟩ 4#4))
    (fun t => (t.w, t.cur, t.rc)) (⟨0x2587#16, 0xCAE2#16, 0x7A12#16, 0xD300#16⟩, 8#4, 32#6) = true := by decide +kernel

/-- 95_test_vectors.md 2.3, RULE_A_INV at round 24: the words and the cursor, and RC as it was. -/
theorem test_ruleAInv_round_24 : gives (exec .ruleAInv (running .decrypt 24#6 ⟨0x65A7#16, 0xDEAA#16, 0x1115#16, 0x45C0#16⟩ 6#4))
    (fun t => (t.w, t.cur, t.rc)) (⟨0x6F7F#16, 0x1115#16, 0x45C0#16, 0xBB15#16⟩, 2#4, 24#6) = true := by decide +kernel

/-- 95_test_vectors.md 2.3, RULE_A_INV at round 8: the words and the cursor, and RC as it was. -/
theorem test_ruleAInv_round_8 : gives (exec .ruleAInv (running .decrypt 8#6 ⟨0xD79B#16, 0x5599#16, 0xBE50#16, 0xDD90#16⟩ 2#4))
    (fun t => (t.w, t.cur, t.rc)) (⟨0xF9B9#16, 0xBE50#16, 0xDD90#16, 0x820A#16⟩, 8#4, 8#6) = true := by decide +kernel

/-- 95_test_vectors.md 2.3, RULE_B_INV at round 32: the words and the cursor, and RC as it was. -/
theorem test_ruleBInv_round_32 : gives (exec .ruleBInv (running .decrypt 32#6 ⟨0x2587#16, 0xCAE2#16, 0x7A12#16, 0xD300#16⟩ 8#4))
    (fun t => (t.w, t.cur, t.rc)) (⟨0x1ADC#16, 0x60EE#16, 0xD300#16, 0x2587#16⟩, 4#4, 32#6) = true := by decide +kernel

/-- 95_test_vectors.md 2.3, RULE_B_INV at round 16: the words and the cursor, and RC as it was. -/
theorem test_ruleBInv_round_16 : gives (exec .ruleBInv (running .decrypt 16#6 ⟨0xD7F8#16, 0x8990#16, 0x5397#16, 0x9883#16⟩ 4#4))
    (fun t => (t.w, t.cur, t.rc)) (⟨0x3A5E#16, 0x69D9#16, 0x9883#16, 0xD7F8#16⟩, 0#4, 16#6) = true := by decide +kernel

/-- 95_test_vectors.md 2.2. -/
theorem test_g_primary : gives (exec (.g 0x3322#16 0#4) keyed) (·.unitOut) (some (.word 0x0BAF#16 4#4)) = true := by
  decide +kernel

/-- R120's example, with KV = 0: G reads K as it stands (notes/assumptions/19.md). -/
theorem test_g_without_key_valid :
    gives (exec (.g 0x3322#16 0#4) { keyed with kv := false }) (·.unitOut) (some (.word 0x0BAF#16 4#4)) = true := by
  decide +kernel

/-- 95_test_vectors.md 2.2: the cursor wraps from 9 to 0. -/
theorem test_g_wraps : gives (exec (.g 0x1234#16 8#4) keyed) (·.unitOut) (some (.word 0x4941#16 2#4)) = true := by
  decide +kernel

/-- R121's example. -/
theorem test_gInv_primary : gives (exec (.gInv 0x0BAF#16 4#4) keyed) (·.unitOut) (some (.word 0x3322#16 0#4)) = true := by
  decide +kernel

/-- 95_test_vectors.md 2.2: back over the wrap. -/
theorem test_gInv_wraps : gives (exec (.gInv 0x4941#16 2#4) keyed) (·.unitOut) (some (.word 0x1234#16 8#4)) = true := by
  decide +kernel

/-- 95_test_vectors.md 2.1: the edges of the table. -/
theorem test_rom_edges : (Memory.read [] 0x00#8, Memory.read [] 0x0F#8, Memory.read [] 0x10#8, Memory.read [] 0x7F#8,
    Memory.read [] 0x80#8, Memory.read [] 0xFE#8, Memory.read [] 0xFF#8) =
    (0xA3#8, 0xF9#8, 0xE7#8, 0x1D#8, 0x42#8, 0x2A#8, 0x46#8) := by decide +kernel

/-- 95_test_vectors.md 2.1: the one address that maps to 0x00. -/
theorem test_romRead_zero : gives (exec (.romRead 0x69#8) State.reset) (·.unitOut) (some (.byte 0x00#8)) = true := by
  decide +kernel

/-- 95_test_vectors.md 2.8: SR after reset, after SETKEY, during an operation. -/
theorem test_readSr_values : gives (exec .readSr State.reset) lastOut (some (.sr 0x00#8)) = true ∧
    gives (exec .readSr keyed) lastOut (some (.sr 0x02#8)) = true ∧
    gives (exec .readSr (runningZero .encrypt 5#6 6#4)) lastOut (some (.sr 0x03#8)) = true := by decide

/-- R230, R231: reset in an operation; the response never comes. -/
theorem test_reset_aborts : gives (exec .reset (runningZero .decrypt 32#6 8#4))
    (fun t => (t.busy, t.kv, t.pending, t.outbox)) (false, false, none, []) = true := by decide

/-! ### The step around the instructions -/

/-- 95_test_vectors.md 2.4, the last row: the last ROUND step packs the words into the response and clears BUSY (R178). -/
theorem test_step_last_round : gives (step (running .encrypt 32#6 ⟨0x1ADC#16, 0x60EE#16, 0xD300#16, 0x2587#16⟩ 4#4))
    (fun t => (t.busy, t.cur, lastOut t)) (false, 8#4, some (.response ⟨0x00#8, primaryCipher.toList⟩)) = true := by
  decide +kernel

/-- 95_test_vectors.md 2.4, first row: RC moves on (R150). -/
theorem test_step_first_round : gives (step (running .encrypt 1#6 ⟨0x3322#16, 0x1100#16, 0xDDCC#16, 0xBBAA#16⟩ 0#4))
    (fun t => (t.w, t.rc, t.busy, t.outbox)) (⟨0xB004#16, 0x0BAF#16, 0x1100#16, 0xDDCC#16⟩, 2#6, true, []) = true := by
  decide +kernel

/-- 95_test_vectors.md 3.3, line 4: a command submitted during an operation is held (R181). -/
theorem test_step_holds_command :
    gives (step { runningZero .encrypt 1#6 0#4 with pending := some (command 0x01#8 primaryKey.toList) })
      (fun t => (t.busy, t.pending)) (true, some (command 0x01#8 primaryKey.toList)) = true := by decide +kernel

/-- SUBMIT makes the command pending (R170). -/
theorem test_step_submit : gives (step { State.reset with sched := [.submit ⟨0x0004#16, []⟩] })
    (fun t => (t.pending, t.sched)) (some ⟨0x0004#16, []⟩, []) = true := by decide

/-! ### Faults and refusals of the model -/

/-- I11: a cursor of 10, with and without a key. -/
theorem test_g_faults : faultsWith (exec (.g 0#16 10#4) State.reset) .cursorOutOfRange = true ∧
    faultsWith (exec (.g 0#16 10#4) keyed) .cursorOutOfRange = true := by decide

/-- I4, I12, I11: the operation's registers while BUSY = 0, a round counter of 0 and of 33, a cursor of 15. -/
theorem test_rule_faults : faultsWith (exec .ruleA keyed) .operationStateHoldsNoValue = true ∧
    faultsWith (exec .ruleA (runningZero .encrypt 0#6 0#4)) .roundIndexOutOfRange = true ∧
    faultsWith (exec .ruleBInv (runningZero .decrypt 33#6 0#4)) .roundIndexOutOfRange = true ∧
    faultsWith (exec .ruleB (runningZero .encrypt 9#6 15#4)) .cursorOutOfRange = true := by decide

/-! ### The assembler -/

/-- R81: case-insensitive, with a comment. -/
theorem test_asm_setkey_line :
    assembleText ['s', 'e', 't', 'K', 'e', 'y', ' ', '0', '0', ' ', 'f', 'F', ' ', ';', ' ', 'x'] =
      some (.submit ⟨0x0201#16, [0x00#8, 0xFF#8]⟩) := by decide +kernel

/-- R82: a reserved OP through CMD; R81: a line whose count disagrees is rejected. -/
theorem test_asm_cmd_line :
    assembleText ['C', 'M', 'D', ' ', '0', 'x', '0', '0', '0', '4'] = some (.submit ⟨0x0004#16, []⟩) ∧
    assembleText ['C', 'M', 'D', ' ', '0', 'x', '0', '1', '0', '4'] = none := by decide +kernel

/-- R81: the two port lines. -/
theorem test_asm_port_lines : assembleText ['R', 'E', 'A', 'D', 'S', 'R'] = some (.port .readSr) ∧
    assembleText ['r', 'e', 's', 'e', 't'] = some (.port .reset) := by decide +kernel

/-! ### Whole operations -/

/-- 95_test_vectors.md 1.1: after 33 steps the response is the source's ciphertext. -/
theorem test_encrypt_primary :
    gives (runSteps 33 { keyed with pending := some (command 0x02#8 primaryPlain.toList) })
      (fun t => (t.busy, t.cur, t.outbox)) (false, 8#4, [.response ⟨0x00#8, primaryCipher.toList⟩]) = true := by
  decide +kernel

/-- 95_test_vectors.md 1.1, decrypting. -/
theorem test_decrypt_primary :
    gives (runSteps 33 { keyed with pending := some (command 0x03#8 primaryCipher.toList) })
      (fun t => (t.busy, t.cur, t.outbox)) (false, 0#4, [.response ⟨0x00#8, primaryPlain.toList⟩]) = true := by
  decide +kernel

/-! ### Witnesses: for each statement with hypotheses, values that meet them all, at the boundaries of each clause -/

/-- The words of round 8 of 95_test_vectors.md 2.4, before that round. -/
def round8 : State := running .encrypt 8#6 ⟨0xF9B9#16, 0xBE50#16, 0xDD90#16, 0x820A#16⟩ 8#4

/-- Round 32 of 95_test_vectors.md 2.4, decrypting. -/
def round32Inv : State := running .decrypt 32#6 ⟨0x2587#16, 0xCAE2#16, 0x7A12#16, 0xD300#16⟩ 8#4

theorem round8_ready : round8.RoundReady 8 := ⟨rfl, by decide, by decide, rfl⟩

theorem round32Inv_ready : round32Inv.RoundReady 8 := ⟨rfl, by decide, by decide, rfl⟩

theorem round8_inv : round8.Inv :=
  ⟨fun _ => rfl, by decide, by decide, by decide, nofun, nofun⟩

theorem round32Inv_inv : round32Inv.Inv :=
  ⟨fun _ => rfl, by decide, by decide, by decide, nofun, nofun⟩

/-- A host that submits one command while another runs. -/
def busyWithPending : State := { round8 with pending := some (command 0x01#8 primaryKey.toList), sched := [.core] }

theorem busyWithPending_inv : busyWithPending.Inv :=
  ⟨fun _ => rfl, by decide, by decide, by decide, (fun c h => by cases h; decide), fun e h => by
    simp only [busyWithPending, List.mem_singleton] at h; subst h; rfl⟩

theorem witness_DecodeOfEncodeIsIdentity :
    (Instr.setkey (List.replicate 255 0xFF#8)).wellFormed = true ∧ (Instr.reserved80 127#7 []).wellFormed = true ∧
    (Instr.g 0xFFFF#16 9#4).wellFormed = true ∧ (Instr.gInv 0#16 0#4).wellFormed = true := by decide +kernel

theorem witness_EncodeOfDecodeIsIdentity :
    decode (.unitOp (.gOp 1#1 0xFFFF#16 9#4)) = .ok (.gInv 0xFFFF#16 9#4) ∧
    decode (.hostCmd ⟨0x00FF#16, []⟩) = .ok (.reserved80 127#7 []) := by decide

theorem witness_ReservedOpRaisesIllegalCommand : ∀ op ∈ [0x00#8, 0x04#8, 0xFF#8], (command op [1#8, 2#8]).agrees = true ∧
    (command op [1#8, 2#8]).op ≠ 0x01#8 ∧ (command op [1#8, 2#8]).op ≠ 0x02#8 ∧
    (command op [1#8, 2#8]).op ≠ 0x03#8 := by decide

theorem witness_ReservedRowsComplete (b3 : BitVec 3) (b4 : BitVec 4) (b5 : BitVec 5) (b6 : BitVec 6) :
    ∀ i ∈ [Instr.reserved00 [], .reserved04 3#2 [], .reserved80 127#7 []],
    i ∈ [Instr.reserved00 [], .reserved04 3#2 [], .reserved08 b3 [], .reserved10 b4 [], .reserved20 b5 [],
      .reserved40 b6 [], .reserved80 127#7 []] := by simp

theorem witness_RoundSelectsItsRule :
    (∀ r ∈ [1#6, 8#6, 17#6, 24#6], 1 ≤ r.toNat ∧ r.toNat ≤ 32 ∧ (r.toNat ≤ 8 ∨ (17 ≤ r.toNat ∧ r.toNat ≤ 24)) ∧
      ¬((9 ≤ r.toNat ∧ r.toNat ≤ 16) ∨ 25 ≤ r.toNat)) ∧
    (∀ r ∈ [9#6, 16#6, 25#6, 32#6], 1 ≤ r.toNat ∧ r.toNat ≤ 32 ∧ ((9 ≤ r.toNat ∧ r.toNat ≤ 16) ∨ 25 ≤ r.toNat) ∧
      ¬(r.toNat ≤ 8 ∨ (17 ≤ r.toNat ∧ r.toNat ≤ 24))) := by decide

theorem witness_AssemblerSpellsCommands : (List.replicate 255 0#8).length ≤ 255 ∧
    (0xFF04#16).toNat / 256 = (List.replicate 255 0#8).length ∧
    (0xFE04#16).toNat / 256 ≠ (List.replicate 255 0#8).length := by decide +kernel

theorem witness_SetkeyLoadsKey : ([] : List Byte).length ≠ 10 ∧ (List.replicate 255 0#8).length ≠ 10 := by decide +kernel

theorem witness_InvalidKeySizeExactly : (List.replicate 9 0#8).length ≠ 10 ∧ (List.replicate 11 0#8).length ≠ 10 ∧
    (List.replicate 10 0#8).length = 10 := by decide

theorem witness_AcceptStartsTheOperation : keyed.kv = true ∧ (runningZero .encrypt 1#6 0#4).kv = true := by decide

theorem witness_BlockErrorsExactly : State.reset.kv = false ∧ keyed.kv = true ∧ (List.replicate 7 0#8).length ≠ 8 ∧
    (List.replicate 9 0#8).length ≠ 8 ∧ (List.replicate 8 0#8).length = 8 ∧
    (Instr.decrypt [] = .encrypt [] ∨ Instr.decrypt [] = .decrypt []) := by decide

theorem witness_ErrorsWriteNoState :
    exec (.encrypt []) keyed = .next (keyed.raiseError .invalidBlockSize) ∧
    (keyed.raiseError .invalidBlockSize).outbox = keyed.outbox ++ [.response ⟨0x02#8, []⟩] ∧ 0x02#8 ≠ 0x00#8 :=
  ⟨rfl, rfl, by decide⟩

theorem witness_ErrorPriority : (command 0xFF#8 []).agrees = true ∧ (command 0xFF#8 []).op ∉ [0x01#8, 0x02#8, 0x03#8] ∧
    (command 0x02#8 [0#8]).agrees = true ∧ (command 0x02#8 [0#8]).op ∈ [0x02#8, 0x03#8] ∧ State.reset.kv = false ∧
    keyed.kv = true ∧ (command 0x02#8 [0#8]).len ≠ 8#8 ∧ (command 0x03#8 []).op ∈ [0x02#8, 0x03#8] ∧
    (command 0x01#8 []).agrees = true ∧ (command 0x01#8 []).op = 0x01#8 ∧ (command 0x01#8 []).len ≠ 10#8 := by decide

/-- A core that runs under another key, and one that is idle with no key, with the same schedule and outbox. -/
theorem witness_ResetClears : State.reset.rom = round8.rom ∧ State.reset.sched = round8.sched ∧
    State.reset.outbox = round8.outbox ∧ State.reset.key ≠ round8.key := by decide

theorem witness_RomReadGivesTheTable : State.reset.rom = [] := rfl

theorem witness_GComputesFourLookups : (0#4).toNat < 10 ∧ (9#4).toNat < 10 := by decide

theorem witness_GInvComputesFourLookups : (0#4).toNat < 10 ∧ (9#4).toNat < 10 := by decide

theorem witness_RuleAResult : round8.RoundReady 8 := round8_ready

theorem witness_RuleBResult : (runningZero .encrypt 32#6 9#4).RoundReady 9 := ⟨rfl, by decide, by decide, rfl⟩

theorem witness_RuleAInvResult : (runningZero .decrypt 1#6 0#4).RoundReady 0 := ⟨rfl, by decide, by decide, rfl⟩

theorem witness_RuleBInvResult : round32Inv.RoundReady 8 := round32Inv_ready

theorem witness_RoundInverseLaw : goesOn (exec .ruleA round8) = true ∧ goesOn (exec .ruleAInv round8) = true ∧
    goesOn (exec .ruleB round32Inv) = true ∧ goesOn (exec .ruleBInv round32Inv) = true := by decide +kernel

theorem witness_CursorIsFunctionOfRound : 0 ≤ 32 ∧ 32 ≤ 32 := by decide

theorem witness_RoundAndCursorReadsFault : keyed.busy = false ∧ (runningZero .encrypt 0#6 0#4).busy = true ∧
    (runningZero .encrypt 0#6 0#4).rc.toNat = 0 ∧ 33 ≤ (runningZero .encrypt 33#6 0#4).rc.toNat ∧
    33 ≤ (runningZero .encrypt 63#6 0#4).rc.toNat ∧
    1 ≤ (runningZero .encrypt 1#6 10#4).rc.toNat ∧ (runningZero .encrypt 32#6 10#4).rc.toNat ≤ 32 ∧
    10 ≤ (runningZero .encrypt 32#6 10#4).cur.toNat ∧
    10 ≤ (10#4).toNat := by decide

theorem witness_CanonicalMemoriesAreEqual : Memory.wf [(0x00, 0x00#8), (0xFF, 0x00#8)] = true ∧ Memory.wf [] = true ∧
    Memory.wf [(0x69, 0x00#8)] = false := by decide +kernel

theorem witness_RomNeverChanges : goesOn (step round8) = true ∧
    goesOn (step { round8 with sched := [.port .reset] }) = true := by decide +kernel

theorem witness_StepRunsDecodedInstruction :
    ({ keyed with sched := [.port .readSr, .core] } : State).sched = .port .readSr :: [.core] ∧
    decode (.port .readSr) = .ok .readSr ∧
    ({ keyed with sched := [.unitOp (.gOp 0#1 0#16 9#4)] } : State).sched = .unitOp (.gOp 0#1 0#16 9#4) :: [] ∧
    decode (.unitOp (.gOp 0#1 0#16 9#4)) = .ok (.g 0#16 9#4) ∧
    CoreMoves { keyed with pending := some ⟨0x0004#16, []⟩ } { keyed with pending := some ⟨0x0004#16, []⟩ } ∧
    keyed.busy = false ∧ decode (.hostCmd ⟨0x0004#16, []⟩) = .ok (.reserved04 0#2 []) :=
  ⟨rfl, by decide, rfl, by decide, .noEvent rfl, rfl, by decide⟩

/-- The fault clause, the last round in each direction, and a round that is not the last. -/
theorem witness_RoundStepRunsSelectedRule :
    CoreMoves round8 round8 ∧ round8.busy = true ∧ decode (.roundOp (roundSelect round8.dir round8.rc)) = .ok .ruleA ∧
    goesOn (exec .ruleA round8) = true ∧
    CoreMoves (runningZero .encrypt 0#6 0#4) (runningZero .encrypt 0#6 0#4) ∧
    decode (.roundOp (roundSelect .encrypt 0#6)) = .ok .ruleB ∧
    faultsWith (exec .ruleB (runningZero .encrypt 0#6 0#4)) .roundIndexOutOfRange = true ∧
    decode (.roundOp (roundSelect .encrypt 32#6)) = .ok .ruleB ∧
    gives (exec .ruleB (runningZero .encrypt 32#6 4#4)) (fun u => (u.dir, u.rc)) (.encrypt, 32#6) = true ∧
    decode (.roundOp (roundSelect .decrypt 1#6)) = .ok .ruleAInv ∧
    gives (exec .ruleAInv (runningZero .decrypt 1#6 4#4)) (fun u => (u.dir, u.rc)) (.decrypt, 1#6) = true :=
  ⟨.noEvent rfl, rfl, by decide, by decide +kernel, .noEvent rfl, by decide, by decide, by decide, by decide +kernel,
    by decide, by decide +kernel⟩

theorem witness_SubmitMakesPendingOrWaits :
    ({ keyed with sched := [.submit ⟨0x0004#16, []⟩] } : State).sched = .submit ⟨0x0004#16, []⟩ :: [] ∧
    keyed.pending = none ∧
    ({ busyWithPending with sched := [.submit ⟨0x0004#16, []⟩] } : State).pending ≠ none ∧
    goesOn (step { busyWithPending with sched := [.submit ⟨0x0004#16, []⟩] }) = true :=
  ⟨rfl, rfl, by decide, by decide +kernel⟩

theorem witness_IdleCoreWaits : CoreMoves { keyed with sched := [.core] } keyed ∧ CoreMoves keyed keyed ∧
    keyed.busy = false ∧ keyed.pending = none :=
  ⟨.given [] rfl, .noEvent rfl, rfl, rfl⟩

theorem witness_CommandHoldWhileBusy : busyWithPending.Inv ∧
    CoreMoves busyWithPending { busyWithPending with sched := [] } ∧ busyWithPending.busy = true ∧
    busyWithPending.pending = some (command 0x01#8 primaryKey.toList) :=
  ⟨busyWithPending_inv, .given [] rfl, rfl, rfl⟩

/-- The three clauses: nothing changes, SETKEY, RESET. -/
theorem witness_OnlySetkeyAndResetTouchKey :
    gives (step round8) (fun t => (t.key, t.kv)) (primaryKey, true) = true ∧
    gives (step { State.reset with pending := some (command 0x01#8 primaryKey.toList) }) (fun t => (t.key, t.kv))
      (primaryKey, true) = true ∧
    gives (step { keyed with sched := [.port .reset] }) (·.kv) false = true := by decide +kernel

theorem witness_ResetAbortsOperation :
    ({ round8 with sched := [.port .reset, .core] } : State).sched = .port .reset :: [.core] := rfl

/-- The clauses: nothing delivered, SR, an error, and the eight bytes of a completed operation. -/
theorem witness_StepDeliversAtMostOne : gives (step round8) (·.outbox) [] = true ∧
    gives (step { keyed with sched := [.port .readSr] }) (·.outbox) [.sr 0x02#8] = true ∧
    gives (step { keyed with pending := some ⟨0x0004#16, []⟩ }) (·.outbox) [.response ⟨0x04#8, []⟩] = true ∧
    gives (step (running .encrypt 32#6 ⟨0x1ADC#16, 0x60EE#16, 0xD300#16, 0x2587#16⟩ 4#4)) (·.outbox)
      [.response ⟨0x00#8, primaryCipher.toList⟩] = true := by decide +kernel

theorem witness_NoInstructionDeliversTheKey : goesOn (exec .readSr keyed) = true ∧
    goesOn (exec .readSr { keyed with key := Vector.replicate 10 0#8 }) = true ∧ goesOn (exec .ruleA round8) = true ∧
    goesOn (exec .ruleA { round8 with key := Vector.replicate 10 0#8 }) = true := by decide +kernel

theorem witness_StepKeepsInvariant : round8.Inv ∧ goesOn (step round8) = true ∧ busyWithPending.Inv ∧
    goesOn (step busyWithPending) = true :=
  ⟨round8_inv, by decide +kernel, busyWithPending_inv, by decide +kernel⟩

theorem witness_StepNeverStops : round32Inv.Inv := round32Inv_inv

/-- The three values of SR. -/
theorem witness_SrIsNeverBusyWithoutKey : round8.Inv ∧ round8.srView = 0x03#8 ∧ keyed.srView = 0x02#8 ∧
    State.reset.srView = 0x00#8 := ⟨round8_inv, by decide, by decide, by decide⟩

/-- Two states that differ in K while KV = 0, and two that differ in W and RC while BUSY = 0. -/
theorem witness_ValuelessRegistersDecideNothing :
    State.reset.busy = false ∧ keyed.busy = false ∧ (round8.busy = true → round8.kv = true) ∧
    State.visible { State.reset with key := primaryKey } = State.visible State.reset ∧
    ({ State.reset with key := primaryKey } : State) ≠ State.reset ∧
    State.visible { keyed with rc := 7#6, w := round8.w } = State.visible keyed ∧
    ({ keyed with rc := 7#6, w := round8.w } : State) ≠ keyed := by decide +kernel

theorem witness_OperationTerminates : round8.Inv ∧ round8.busy = true ∧ round8.sched = [] ∧ 24 < round8.roundsLeft ∧
    round32Inv.Inv ∧ round32Inv.busy = true ∧ round32Inv.sched = [] ∧ 31 < round32Inv.roundsLeft :=
  ⟨round8_inv, rfl, rfl, by decide, round32Inv_inv, rfl, rfl, by decide⟩

theorem witness_StepMachineRefinesExec : keyed.busy = false ∧ keyed.sched = [] ∧
    ({ keyed with pending := some (command 0x02#8 primaryPlain.toList) } : State).pending =
      some (command 0x02#8 primaryPlain.toList) ∧ (command 0x02#8 primaryPlain.toList).agrees = true ∧
    stepsOf keyed.context (command 0x02#8 primaryPlain.toList) = 33 ∧
    stepsOf State.reset.context (command 0x02#8 primaryPlain.toList) = 1 := by decide

/-- A host that reads SR, submits a second command and reads SR again while the first is answered. -/
def talkingHost : State :=
  { keyed with
    pending := some (command 0x02#8 primaryPlain.toList)
    sched := [.port .readSr, .core, .submit (command 0x01#8 []), .port .readSr] }

theorem witness_EveryHostGetsExecsAnswer : talkingHost.busy = false ∧
    talkingHost.pending = some (command 0x02#8 primaryPlain.toList) ∧
    (command 0x02#8 primaryPlain.toList).agrees = true ∧
    ∀ e ∈ talkingHost.sched, e.hostDriven = true ∧ e ≠ .port .reset := by decide

theorem witness_CommandStreamRefinesExec :
    ({ State.reset with sched := [.submit (command 0x01#8 primaryKey.toList),
        .submit (command 0x02#8 primaryPlain.toList)] } : State).sched =
      [command 0x01#8 primaryKey.toList, command 0x02#8 primaryPlain.toList].map .submit ∧
    State.reset.busy = false ∧ State.reset.pending = none ∧
    ∀ c ∈ [command 0x01#8 primaryKey.toList, command 0x02#8 primaryPlain.toList], c.agrees = true :=
  ⟨rfl, rfl, rfl, by decide⟩

theorem witness_SameBlockSameAnswer : keyed.busy = false ∧ keyed.pending = none ∧
    ((command 0x02#8 primaryPlain.toList).op = 0x02#8 ∨ (command 0x02#8 primaryPlain.toList).op = 0x03#8) ∧
    (command 0x02#8 primaryPlain.toList).agrees = true ∧
    ∀ c ∈ [command 0x01#8 [], command 0xFF#8 []], c.agrees = true ∧ isGoodSetkey c = false := by decide

end Sys2Proof.Tests
end

section
/-! SUPPORT. The statements about the state of the core (spec/10_state.md): the cursor, the reads that fault, the idle
core, the key, the invariant, and the registers that hold no value. -/

namespace Sys2Proof.Machine

/-! ### The four round rules -/

/-- The instructions of the round rules, as the statements list them. -/
theorem decodeRoundOp_mem (mop : BitVec 2) :
    decodeRoundOp mop ∈ [Instr.ruleA, .ruleB, .ruleAInv, .ruleBInv] := by
  unfold decodeRoundOp
  repeat' split
  all_goals simp

/-- Every round rule reads the guarded operands and writes W and CUR by a function of the ROM and those operands. -/
theorem exec_roundRule {i : Instr} (hi : i ∈ [Instr.ruleA, .ruleB, .ruleAInv, .ruleBInv]) :
    ∃ f : Memory → Key → BitVec 6 → Block → Cursor → Block × Cursor, ∀ s : State,
      exec i s = withRoundOperands s fun k r b c => s.writeRound (f s.rom k r b c) := by
  simp only [List.mem_cons, List.not_mem_nil, or_false] at hi
  obtain rfl | rfl | rfl | rfl := hi
  · exact ⟨ruleA, exec_ruleA⟩
  · exact ⟨ruleB, exec_ruleB⟩
  · exact ⟨ruleAInv, exec_ruleAInv⟩
  · exact ⟨ruleBInv, exec_ruleBInv⟩

/-- The transaction level's round in the operation's direction (R146, R147). -/
def dirRound (dir : Direction) (rom : Memory) (k : Key) (r : Nat) (x : Block × Cursor) : Block × Cursor :=
  match dir with
  | .encrypt => encRound rom k r x
  | .decrypt => decRound rom k r x

/-- A ROUND step's rule that completes was ready for its round, and wrote what the transaction level's round gives. -/
theorem exec_selected_rule_next {s t : State}
    (h : exec (decodeRoundOp (roundSelect s.dir s.rc)) s = .next t) :
    ∃ c, s.RoundReady c ∧ t = s.writeRound (dirRound s.dir s.rom s.key s.rc.toNat (s.w, c)) := by
  obtain ⟨f, hf⟩ := exec_roundRule (decodeRoundOp_mem (roundSelect s.dir s.rc))
  obtain ⟨c, hc, -⟩ := ready_of_withRoundOperands ((hf s).symm.trans h)
  have hsel := h.symm.trans (exec_selected_rule hc)
  injection hsel with hsel
  exact ⟨c, hc, hsel⟩

/-! ### The cursor's walk through the rounds (R28, R123) -/

theorem encRound_cursor_val (rom : Memory) (k : Key) (r : Nat) (x : Block × Cursor) :
    (encRound rom k r x).2.val = (x.2.val + 4) % 10 := by
  have hwalk : (encRound rom k r x).2 = cursorNext (cursorNext (cursorNext (cursorNext x.2))) := by
    unfold encRound
    split <;> rfl
  rw [hwalk]
  simp only [cursorNext]
  omega

theorem decRound_cursor_val (rom : Memory) (k : Key) (r : Nat) (x : Block × Cursor) :
    (decRound rom k r x).2.val = (x.2.val + 6) % 10 := by
  have hwalk : (decRound rom k r x).2 = cursorPrev (cursorPrev (cursorPrev (cursorPrev x.2))) := by
    unfold decRound
    split <;> rfl
  rw [hwalk]
  simp only [cursorPrev]
  omega

theorem encAfter_cursor_val (rom : Memory) (k : Key) (b : Block) (n : Nat) :
    (encAfter rom k b n).2.val = (4 * n) % 10 := by
  induction n with
  | zero => rfl
  | succ n ih =>
    rw [encAfter, encRound_cursor_val, ih]
    omega

theorem decAfter_cursor_val (rom : Memory) (k : Key) (b : Block) (n : Nat) (hn : n ≤ 32) :
    (decAfter rom k b n).2.val = (4 * (32 - n)) % 10 := by
  induction n with
  | zero => rfl
  | succ n ih =>
    rw [decAfter, decRound_cursor_val, ih (by omega)]
    omega

/-- Settles O30: each round moves the cursor by 4, forward or back, by induction on the number of rounds. -/
theorem cursorIsFunctionOfRound : Obligations.CursorIsFunctionOfRound :=
  fun rom k b n hn => ⟨encAfter_cursor_val rom k b n, decAfter_cursor_val rom k b n hn⟩

/-! ### The reads that fault -/

theorem withGOperands_cursor_illegal {s : State} {c : BitVec 4} (h : 10 ≤ c.toNat) (f : Key → Cursor → State) :
    withGOperands s c f = .fault .cursorOutOfRange :=
  dif_neg (Nat.not_lt.mpr h)

theorem withRoundOperands_idle {s : State} (h : s.busy = false) (f : Key → BitVec 6 → Block → Cursor → State) :
    withRoundOperands s f = .fault .operationStateHoldsNoValue :=
  if_pos h

/-- While BUSY = 1 only the checks of RC and CUR are left. -/
theorem withRoundOperands_busy {s : State} (h : s.busy = true) (f : Key → BitVec 6 → Block → Cursor → State) :
    withRoundOperands s f =
      if roundLegal s.rc = false then .fault .roundIndexOutOfRange
      else withGOperands s s.cur fun k c => f k s.rc s.w c :=
  if_neg (by simp [h])

theorem withRoundOperands_round_illegal {s : State} (hb : s.busy = true) (hr : s.rc.toNat = 0 ∨ 33 ≤ s.rc.toNat)
    (f : Key → BitVec 6 → Block → Cursor → State) :
    withRoundOperands s f = .fault .roundIndexOutOfRange := by
  have hill : roundLegal s.rc = false := by
    rw [Bool.eq_false_iff, ne_eq, roundLegal_iff]
    omega
  simp [withRoundOperands_busy hb, hill]

theorem withRoundOperands_cursor_illegal {s : State} (hb : s.busy = true) (hl : 1 ≤ s.rc.toNat)
    (hh : s.rc.toNat ≤ 32) (hc : 10 ≤ s.cur.toNat) (f : Key → BitVec 6 → Block → Cursor → State) :
    withRoundOperands s f = .fault .cursorOutOfRange := by
  simp [withRoundOperands_busy hb, roundLegal_iff.mpr ⟨hl, hh⟩, withGOperands_cursor_illegal hc]

/-- Settles O31: every round rule goes through the guarded operand read, whose checks fault in their order. -/
theorem roundAndCursorReadsFault : Obligations.RoundAndCursorReadsFault := by
  intro s
  constructor
  · intro i hi
    obtain ⟨f, hf⟩ := exec_roundRule hi
    rw [hf]
    exact ⟨fun hb => withRoundOperands_idle hb _, fun hb hr => withRoundOperands_round_illegal hb hr _,
      fun hb hl hh hc => withRoundOperands_cursor_illegal hb hl hh hc _⟩
  · intro w c hc i hi
    simp only [List.mem_cons, List.not_mem_nil, or_false] at hi
    obtain rfl | rfl := hi
    · exact (exec_g w c s).trans (withGOperands_cursor_illegal hc _)
    · exact (exec_gInv w c s).trans (withGOperands_cursor_illegal hc _)

/-! ### The core's turn -/

theorem coreMoves_busy {s t : State} (h : CoreMoves s t) : t.busy = s.busy := by
  obtain ⟨es, rfl, -⟩ := coreMoves_eq h
  rfl

theorem coreMoves_pending {s t : State} (h : CoreMoves s t) : t.pending = s.pending := by
  obtain ⟨es, rfl, -⟩ := coreMoves_eq h
  rfl

theorem coreMoves_key {s t : State} (h : CoreMoves s t) : t.key = s.key := by
  obtain ⟨es, rfl, -⟩ := coreMoves_eq h
  rfl

theorem coreMoves_kv {s t : State} (h : CoreMoves s t) : t.kv = s.kv := by
  obtain ⟨es, rfl, -⟩ := coreMoves_eq h
  rfl

/-- Settles O38: the idle core's turn is the state the core moves from. -/
theorem idleCoreWaits : Obligations.IdleCoreWaits := by
  intro s t hm hb hp
  have hturn : s.turn = .idle t := by
    rw [turn_of_coreMoves hm, coreTurn_idle ((coreMoves_busy hm).trans hb) ((coreMoves_pending hm).trans hp)]
  rw [step, stepTurn, hturn]

/-! ### The key -/

/-- A command writes K and KV only if it is a SETKEY whose data are the new key (R172, R185). -/
theorem exec_decodeOp_key {op : Byte} {d : List Byte} {s t : State} (h : exec (decodeOp op d) s = .next t) :
    (t.key = s.key ∧ t.kv = s.kv) ∨ (op = 0x01#8 ∧ d = t.key.toList ∧ t.kv = true) := by
  obtain ⟨hop, he⟩ | ⟨_, he⟩ | ⟨_, he⟩ | ⟨_, he⟩ := exec_decodeOp op d s
  all_goals
    rw [he] at h
    cases h
  · obtain ⟨_, hl⟩ | ⟨_, hl⟩ := loadKey_cases s d
    · exact .inr ⟨hop, by simp [hl], by simp [hl]⟩
    · exact .inl (by simp [hl])
  · exact .inl (by simp)
  · exact .inl (by simp)
  · exact .inl (by simp)

/-- Settles O40, over the cases of a step: only the ACCEPT of SETKEY and RESET write K or KV. -/
theorem onlySetkeyAndResetTouchKey : Obligations.OnlySetkeyAndResetTouchKey := by
  intro s t h
  obtain ⟨c, es, _, _, rfl⟩ | ⟨es, _, rfl⟩ | ⟨es, hs, rfl⟩ | ⟨u, es, o, _, rfl⟩ | ⟨hm, _, _⟩ |
    ⟨u, c, hm, hb, hp, _, hx⟩ | ⟨u, v, hm, _, hv, rfl⟩ := step_next_cases h
  · exact .inl ⟨rfl, rfl⟩
  · exact .inl ⟨rfl, rfl⟩
  · exact .inr (.inr ⟨⟨es, hs⟩, rfl⟩)
  · exact .inl ⟨rfl, rfl⟩
  · exact .inl ⟨coreMoves_key hm, coreMoves_kv hm⟩
  · obtain ⟨hkey, hkv⟩ | ⟨hop, hd, hkv⟩ := exec_decodeOp_key hx
    · exact .inl ⟨hkey.trans (coreMoves_key hm :), hkv.trans (coreMoves_kv hm :)⟩
    · exact .inr (.inl ⟨c, (coreMoves_busy hm).symm.trans hb, (coreMoves_pending hm).symm.trans hp, hop, hd, hkv⟩)
  · obtain ⟨c, _, rfl⟩ := exec_selected_rule_next hv
    exact .inl ⟨by simp [coreMoves_key hm], by simp [coreMoves_kv hm]⟩

/-! ### What an instruction delivers -/

/-- SETKEY's answer. -/
def setkeyAnswer (d : List Byte) : List PortOut :=
  [.response ⟨if d.length = 10 then Status.ok.code else Status.invalidKeySize.code, []⟩]

/-- What the ACCEPT of ENCRYPT or DECRYPT answers: an error, or nothing yet. -/
def acceptAnswer (kv : Bool) (d : List Byte) : List PortOut :=
  if kv = false then [.response ⟨Status.noKey.code, []⟩]
  else if d.length = 8 then [] else [.response ⟨Status.invalidBlockSize.code, []⟩]

/-- What an instruction delivers, from its operands, KV and BUSY alone. -/
def delivered (i : Instr) (kv busy : Bool) : List PortOut :=
  match i with
  | .setkey d => setkeyAnswer d
  | .encrypt d | .decrypt d => acceptAnswer kv d
  | .reserved00 _ | .reserved04 _ _ | .reserved08 _ _ | .reserved10 _ _ | .reserved20 _ _ | .reserved40 _ _
  | .reserved80 _ _ => [.response ⟨Status.illegalCommand.code, []⟩]
  | .ruleA | .ruleB | .ruleAInv | .ruleBInv | .g _ _ | .gInv _ _ | .romRead _ | .reset => []
  | .readSr => [.sr ((BitVec.ofBool kv ++ BitVec.ofBool busy).setWidth 8)]

theorem loadKey_outbox (s : State) (d : List Byte) : (s.loadKey d).outbox = s.outbox ++ setkeyAnswer d := by
  obtain ⟨hlen, h⟩ | ⟨hlen, h⟩ := loadKey_cases s d
  · simp [h, setkeyAnswer, hlen]
  · simp [h, setkeyAnswer, hlen]

theorem acceptOperation_outbox (s : State) (dir : Direction) (d : List Byte) :
    (s.acceptOperation dir d).outbox = s.outbox ++ acceptAnswer s.kv d := by
  obtain ⟨hk, h⟩ | ⟨hk, hlen, h⟩ | ⟨hk, hlen, h⟩ := acceptOperation_cases s dir d
  · simp [h, acceptAnswer, hk]
  · simp [h, acceptAnswer, hk, hlen]
  · simp [h, acceptAnswer, hk, hlen]

theorem roundRule_outbox {i : Instr} (hi : i ∈ [Instr.ruleA, .ruleB, .ruleAInv, .ruleBInv]) {s t : State}
    (h : exec i s = .next t) : t.outbox = s.outbox := by
  obtain ⟨f, hf⟩ := exec_roundRule hi
  obtain ⟨c, -, rfl⟩ := ready_of_withRoundOperands ((hf s).symm.trans h)
  rfl

/-- An instruction that completes has delivered what `delivered` says: the key has no part in it. -/
theorem exec_outbox {i : Instr} {s t : State} (h : exec i s = .next t) :
    t.outbox = s.outbox ++ delivered i s.kv s.busy := by
  cases i with
  | setkey d => cases h; exact loadKey_outbox s d
  | encrypt d | decrypt d => cases h; exact acceptOperation_outbox s _ d
  | reserved00 | reserved04 | reserved08 | reserved10 | reserved20 | reserved40 | reserved80 => cases h; rfl
  | ruleA | ruleB | ruleAInv | ruleBInv => simp [delivered, roundRule_outbox (by simp) h]
  | g w c =>
    rw [exec_g] at h
    obtain ⟨_, rfl⟩ := withGOperands_next.mp h
    simp [delivered]
  | gInv w c =>
    rw [exec_gInv] at h
    obtain ⟨_, rfl⟩ := withGOperands_next.mp h
    simp [delivered]
  | romRead a | reset => cases h; simp [delivered]
  | readSr => cases h; rfl

/-- Settles O43: what is delivered is a function of the instruction, KV and BUSY. -/
theorem noInstructionDeliversTheKey : Obligations.NoInstructionDeliversTheKey :=
  fun _ _ _ _ _ h h' => (exec_outbox h').trans (exec_outbox h).symm

/-! ### The invariant -/

/-- Settles O47: of the four values of KV ‖ BUSY the invariant excludes KV = 0 with BUSY = 1. -/
theorem srIsNeverBusyWithoutKey : Obligations.SrIsNeverBusyWithoutKey := by
  intro s hs
  have hkey := hs.keyLoaded
  unfold State.srView
  cases hb : s.busy with
  | true => exact .inr (.inr (by rw [hkey hb]; decide))
  | false =>
    cases s.kv with
    | false => exact .inl (by decide)
    | true => exact .inr (.inl (by decide))

/-- While BUSY = 0 the invariant speaks of commands alone. -/
theorem inv_of_idle {s : State} (hb : s.busy = false) (hp : ∀ c, s.pending = some c → c.agrees = true)
    (hs : ∀ e ∈ s.sched, e.hostDriven = true) : s.Inv :=
  ⟨by simp [hb], by simp [hb], by simp [hb], by simp [hb], hp, hs⟩

theorem State.Inv.deliver {s : State} (h : s.Inv) (p : PortOut) : (s.deliver p).Inv := { h with }

theorem State.Inv.tail {s : State} (h : s.Inv) {e : Event} {es : List Event} (hs : s.sched = e :: es) :
    ({ s with sched := es } : State).Inv :=
  { h with schedHostDriven := fun e' he => h.schedHostDriven e' (hs ▸ List.mem_cons_of_mem e he) }

theorem State.Inv.head {s : State} (h : s.Inv) {e : Event} {es : List Event} (hs : s.sched = e :: es) :
    e.hostDriven = true :=
  h.schedHostDriven e (hs ▸ List.mem_cons_self)

theorem State.Inv.coreMoves {s t : State} (h : s.Inv) (hm : CoreMoves s t) : t.Inv := by
  cases hm with
  | noEvent _ => exact h
  | given es hs => exact h.tail hs
  | waiting _ _ _ _ _ => exact h

theorem State.Inv.consumePending {s : State} (h : s.Inv) : ({ s with pending := none } : State).Inv :=
  { h with pendingAgrees := nofun }

theorem State.Inv.loadKey {s : State} (h : s.Inv) (d : List Byte) : (s.loadKey d).Inv := by
  obtain ⟨_, hl⟩ | ⟨_, hl⟩ := loadKey_cases s d
  · rw [hl]
    exact { h with keyLoaded := fun _ => rfl }
  · rw [hl]
    exact h.deliver _

/-- The round and the cursor an operation starts with (R175) belong to each other (R28). -/
theorem State.Inv.startOperation {s : State} (h : s.Inv) (hk : s.kv = true) (dir : Direction) (d : BlockBytes) :
    (s.startOperation dir d).Inv where
  keyLoaded _ := hk
  roundLow _ := by cases dir <;> simp [startRound]
  roundHigh _ := by cases dir <;> simp [startRound]
  cursorOfRound _ := by cases dir <;> simp [startRound, startCursor, cursorBefore]
  pendingAgrees := h.pendingAgrees
  schedHostDriven := h.schedHostDriven

theorem State.Inv.acceptOperation {s : State} (h : s.Inv) (dir : Direction) (d : List Byte) :
    (s.acceptOperation dir d).Inv := by
  obtain ⟨_, ha⟩ | ⟨hk, _, ha⟩ | ⟨_, _, ha⟩ := acceptOperation_cases s dir d
  · rw [ha]
    exact h.deliver _
  · rw [ha]
    exact h.startOperation hk dir _
  · rw [ha]
    exact h.deliver _

/-- An ACCEPT step keeps the invariant, whatever the command. -/
theorem State.Inv.command {s t : State} (h : s.Inv) {op : Byte} {d : List Byte}
    (hx : exec (decodeOp op d) s = .next t) : t.Inv := by
  obtain ⟨_, he⟩ | ⟨_, he⟩ | ⟨_, he⟩ | ⟨_, he⟩ := exec_decodeOp op d s
  all_goals
    rw [he] at hx
    cases hx
  · exact h.loadKey d
  · exact h.acceptOperation .encrypt d
  · exact h.acceptOperation .decrypt d
  · exact h.deliver _

/-- A round that is not the operation's last leaves RC in 1..32. -/
theorem nextRound_range {dir : Direction} {r : BitVec 6} (hl : 1 ≤ r.toNat) (hh : r.toNat ≤ 32)
    (hne : r ≠ lastRound dir) : 1 ≤ (nextRound dir r).toNat ∧ (nextRound dir r).toNat ≤ 32 := by
  cases dir with
  | encrypt =>
    simp only [lastRound, nextRound] at hne ⊢
    bv_omega
  | decrypt =>
    simp only [lastRound, nextRound] at hne ⊢
    bv_omega

/-- The round takes the cursor of its own round to that of the next one (R28). -/
theorem dirRound_cursor {dir : Direction} {r : BitVec 6} {c : Cursor} (hl : 1 ≤ r.toNat) (hh : r.toNat ≤ 32)
    (hne : r ≠ lastRound dir) (hc : c.val = cursorBefore dir r.toNat) (rom : Memory) (k : Key) (b : Block) :
    (dirRound dir rom k r.toNat (b, c)).2.val = cursorBefore dir (nextRound dir r).toNat := by
  cases dir with
  | encrypt =>
    have hnext : (r + 1#6).toNat = r.toNat + 1 := by bv_omega
    simp only [cursorBefore] at hc
    simp only [dirRound, encRound_cursor_val, cursorBefore, nextRound, hnext, hc]
    omega
  | decrypt =>
    have hnext : (r - 1#6).toNat + 1 = r.toNat := by bv_omega
    simp only [cursorBefore] at hc
    simp only [dirRound, decRound_cursor_val, cursorBefore, nextRound, hc]
    omega

/-- A ROUND step keeps the invariant: it ends the operation, or RC and the cursor move on together (R28, R150). -/
theorem State.Inv.round {s t : State} (h : s.Inv) (hx : exec (decodeRoundOp (roundSelect s.dir s.rc)) s = .next t) :
    t.finishRound.Inv := by
  obtain ⟨c, hc, rfl⟩ := exec_selected_rule_next hx
  obtain ⟨_, hf⟩ | ⟨hlast, hf⟩ := finishRound_cases (s.writeRound (dirRound s.dir s.rom s.key s.rc.toNat (s.w, c)))
  · rw [hf]
    exact inv_of_idle rfl h.pendingAgrees h.schedHostDriven
  · rw [hf]
    have hrange := nextRound_range hc.roundLow hc.roundHigh hlast
    have hcur := hc.cursor.symm.trans (h.cursorOfRound hc.busy)
    exact
      { h with
        roundLow := fun _ => hrange.1
        roundHigh := fun _ => hrange.2
        cursorOfRound := fun _ =>
          (cursorBits_toNat _).trans (dirRound_cursor hc.roundLow hc.roundHigh hlast hcur _ _ _) }

/-- Settles O45, over the cases of a step. -/
theorem stepKeepsInvariant : Obligations.StepKeepsInvariant := by
  intro s t h hstep
  obtain ⟨c, es, hs, _, rfl⟩ | ⟨es, hs, rfl⟩ | ⟨es, hs, rfl⟩ | ⟨u, es, o, hs, rfl⟩ | ⟨hm, _, _⟩ |
    ⟨u, c, hm, _, _, _, hx⟩ | ⟨u, v, hm, _, hv, rfl⟩ := step_next_cases hstep
  · exact { h.tail hs with pendingAgrees := fun c' hc' => by cases hc'; exact h.head hs }
  · exact (h.tail hs).deliver _
  · exact inv_of_idle rfl nofun (h.tail hs).schedHostDriven
  · exact absurd (h.head hs) nofun
  · exact h.coreMoves hm
  · exact (h.coreMoves hm).consumePending.command hx
  · exact (h.coreMoves hm).round hv

/-! ### The visible part of a state (R33, R35) -/

@[simp] theorem visible_kv (s : State) : s.visible.kv = s.kv := rfl
@[simp] theorem visible_busy (s : State) : s.visible.busy = s.busy := rfl
@[simp] theorem visible_rom (s : State) : s.visible.rom = s.rom := rfl
@[simp] theorem visible_pending (s : State) : s.visible.pending = s.pending := rfl
@[simp] theorem visible_sched (s : State) : s.visible.sched = s.sched := rfl
@[simp] theorem visible_outbox (s : State) : s.visible.outbox = s.outbox := rfl

/-- While an operation runs under a key every register holds a value: only the record of unit operations is hidden. -/
theorem visible_of_busy {s : State} (hb : s.busy = true) (hk : s.kv = true) :
    s.visible = { s with unitOut := none } := by
  simp [State.visible, hb, hk]

@[simp] theorem visible_visible (s : State) : s.visible.visible = s.visible := by
  cases hb : s.busy <;> cases hk : s.kv <;> simp [State.visible, hb, hk]

/-! ### Each update of the state shows the same after the visible part as after the state -/

theorem deliver_visible (s : State) (p : PortOut) : (s.visible.deliver p).visible = (s.deliver p).visible :=
  congrArg (fun t => State.deliver t p) (visible_visible s)

theorem raiseError_visible (s : State) (e : Status) : (s.visible.raiseError e).visible = (s.raiseError e).visible :=
  deliver_visible s _

/-- SETKEY writes the whole key, so what K held before is of no account. -/
theorem loadKey_visible (s : State) (d : List Byte) : (s.visible.loadKey d).visible = (s.loadKey d).visible := by
  by_cases h : d.length = 10
  · cases hb : s.busy <;> simp [State.loadKey, State.respond, State.deliver, State.visible, h, hb]
  · simpa [State.loadKey, h] using raiseError_visible s _

/-- ACCEPT writes W, RC, CUR and DIR whole, and starts an operation only while KV = 1. -/
theorem acceptOperation_visible (s : State) (dir : Direction) (d : List Byte) :
    (s.visible.acceptOperation dir d).visible = (s.acceptOperation dir d).visible := by
  cases hk : s.kv with
  | false => simpa [State.acceptOperation, hk] using raiseError_visible s _
  | true =>
    by_cases h : d.length = 8
    · simp [State.acceptOperation, State.startOperation, State.visible, hk, h]
    · simpa [State.acceptOperation, hk, h] using raiseError_visible s _

/-- The end of a ROUND step neither reads nor writes the record of unit operations. -/
theorem finishRound_setUnitOut_visible (s : State) (o : Option UnitOut) :
    ({ s with unitOut := o } : State).finishRound.visible = s.finishRound.visible := by
  unfold State.finishRound
  split <;> rfl

/-! ### Each encoded form shows the same -/

/-- The state a command's ACCEPT leaves, by its OP (R76, R172 to R179). -/
def State.accept (s : State) (op : Byte) (d : List Byte) : State :=
  if op = 0x01#8 then s.loadKey d
  else if op = 0x02#8 then s.acceptOperation .encrypt d
  else if op = 0x03#8 then s.acceptOperation .decrypt d
  else s.raiseError .illegalCommand

theorem exec_decodeOp_eq (op : Byte) (d : List Byte) (s : State) :
    exec (decodeOp op d) s = .next (s.accept op d) := by
  obtain ⟨rfl, he⟩ | ⟨rfl, he⟩ | ⟨rfl, he⟩ | ⟨⟨h1, h2, h3⟩, he⟩ := exec_decodeOp op d s
  · exact he
  · exact he
  · exact he
  · rw [he, State.accept, if_neg h1, if_neg h2, if_neg h3]

theorem accept_visible (s : State) (op : Byte) (d : List Byte) :
    (s.visible.accept op d).visible = (s.accept op d).visible := by
  unfold State.accept
  split
  · exact loadKey_visible s d
  split
  · exact acceptOperation_visible s .encrypt d
  split
  · exact acceptOperation_visible s .decrypt d
  · exact raiseError_visible s _

theorem runHostCmd_visible (c : HostCmd) (s : State) :
    visibleOutcome (runEncoded (.hostCmd c) s.visible) = visibleOutcome (runEncoded (.hostCmd c) s) := by
  cases hc : c.agrees with
  | false => simp [runEncoded, decode, decodeHostCmd, hc]
  | true =>
    have hd : decode (.hostCmd c) = .ok (decodeOp c.op c.data) := by simp [decode, decodeHostCmd, hc]
    simp only [runEncoded_ok hd, exec_decodeOp_eq]
    exact congrArg Host.Outcome.next (accept_visible s c.op c.data)

theorem runPort_visible (p : PortOp) (s : State) :
    visibleOutcome (runEncoded (.port p) s.visible) = visibleOutcome (runEncoded (.port p) s) := by
  cases p with
  | readSr => exact congrArg Host.Outcome.next (deliver_visible s _)
  | reset => rfl

/-- A unit operation reads the key as it stands, and only its hidden record shows that. -/
theorem returnWord_visible (s : State) (c : BitVec 4) (f f' : Key → Cursor → Word × Cursor) :
    visibleOutcome (withGOperands s.visible c fun k c => s.visible.returnWord (f k c)) =
      visibleOutcome (withGOperands s c fun k c => s.returnWord (f' k c)) := by
  by_cases h : c.toNat < 10
  · simp only [withGOperands, h, dite_true]
    exact congrArg Host.Outcome.next (visible_visible s)
  · simp only [withGOperands, h, dite_false]

theorem runUnitOp_visible (u : UnitOp) (s : State) :
    visibleOutcome (runEncoded (.unitOp u) s.visible) = visibleOutcome (runEncoded (.unitOp u) s) := by
  cases u with
  | romRd a => exact congrArg Host.Outcome.next (visible_visible s)
  | gOp gd w c =>
    cases hc : cursorLegal c with
    | false => simp [runEncoded, decode, decodeUnitOp, hc]
    | true =>
      by_cases hg : gd = 0#1
      · have hd : decode (.unitOp (.gOp gd w c)) = .ok (.g w c) := by simp [decode, decodeUnitOp, hc, hg]
        rw [runEncoded_ok hd, runEncoded_ok hd]
        exact returnWord_visible s c (gForward s.rom · w ·) (gForward s.rom · w ·)
      · have hd : decode (.unitOp (.gOp gd w c)) = .ok (.gInv w c) := by simp [decode, decodeUnitOp, hc, hg]
        rw [runEncoded_ok hd, runEncoded_ok hd]
        exact returnWord_visible s c (gInverse s.rom · w ·) (gInverse s.rom · w ·)

/-- A ROUND step reads nothing hidden: while BUSY = 0 it faults, and else only the record of unit operations is hidden. -/
theorem runRoundOp_visible (mop : BitVec 2) {s : State} (hk : s.busy = true → s.kv = true) :
    visibleOutcome (runEncoded (.roundOp mop) s.visible) = visibleOutcome (runEncoded (.roundOp mop) s) := by
  obtain ⟨f, hf⟩ := exec_roundRule (decodeRoundOp_mem mop)
  have hd : decode (.roundOp mop) = .ok (decodeRoundOp mop) := rfl
  rw [runEncoded_ok hd, runEncoded_ok hd, hf, hf]
  cases hb : s.busy with
  | false => rw [withRoundOperands_idle hb, withRoundOperands_idle (s := s.visible) hb]
  | true =>
    rw [visible_of_busy hb (hk hb)]
    rw [withRoundOperands_busy hb, withRoundOperands_busy (s := { s with unitOut := none }) hb]
    unfold withGOperands
    split
    · rfl
    split
    · exact congrArg Host.Outcome.next (finishRound_setUnitOut_visible (s.writeRound _) none)
    · rfl

theorem runEncoded_visible (e : Encoded) {s : State} (hk : s.busy = true → s.kv = true) :
    visibleOutcome (runEncoded e s.visible) = visibleOutcome (runEncoded e s) := by
  cases e with
  | hostCmd c => exact runHostCmd_visible c s
  | port p => exact runPort_visible p s
  | roundOp mop => exact runRoundOp_visible mop hk
  | unitOp u => exact runUnitOp_visible u s

/-! ### The turn and the step -/

/-- The visible part of a turn. -/
def Turn.visible : Turn → Turn
  | .submitted t => .submitted t.visible
  | .idle t => .idle t.visible
  | .run e t => .run e t.visible

theorem coreTurn_visible (s : State) : s.visible.coreTurn = s.coreTurn.visible := by
  cases hb : s.busy with
  | true => simp [State.coreTurn, Turn.visible, State.visible, hb]
  | false =>
    cases hp : s.pending with
    | none => rw [coreTurn_idle hb hp, coreTurn_idle (s := s.visible) hb hp, Turn.visible]
    | some c => rw [coreTurn_accept hb hp, coreTurn_accept (s := s.visible) hb hp]; rfl

theorem coreMoves_visible {s t : State} (h : CoreMoves s t) : CoreMoves s.visible t.visible := by
  cases h with
  | noEvent h => exact .noEvent h
  | given es h => exact .given es h
  | waiting c c' es h hp => exact .waiting c c' es h hp

/-- No hidden register decides who moves. -/
theorem turn_visible (s : State) : s.visible.turn = s.turn.visible := by
  obtain ⟨t, hm, ht⟩ | ⟨c, es, hs, hp, ht⟩ | ⟨p, es, hs, ht⟩ | ⟨u, es, hs, ht⟩ := turn_cases s
  · rw [ht, turn_of_coreMoves (coreMoves_visible hm), coreTurn_visible]
  · rw [ht, State.turn, visible_sched, hs, visible_pending, hp]
    rfl
  · rw [ht, State.turn, visible_sched, hs]
    rfl
  · rw [ht, State.turn, visible_sched, hs]
    rfl

theorem coreTurn_run_flags {s t : State} {e : Encoded} (h : s.coreTurn = .run e t) :
    t.busy = s.busy ∧ t.kv = s.kv := by
  cases hb : s.busy with
  | true =>
    rw [coreTurn_busy hb] at h
    cases h
    exact ⟨hb, rfl⟩
  | false =>
    cases hp : s.pending with
    | none => rw [coreTurn_idle hb hp] at h; cases h
    | some c =>
      rw [coreTurn_accept hb hp] at h
      cases h
      exact ⟨hb, rfl⟩

/-- A step runs its instruction under the flags the step began with. -/
theorem turn_run_flags {s t : State} {e : Encoded} (h : s.turn = .run e t) : t.busy = s.busy ∧ t.kv = s.kv := by
  obtain ⟨u, hm, hu⟩ | ⟨c, es, _, _, hu⟩ | ⟨p, es, _, hu⟩ | ⟨u, es, _, hu⟩ := turn_cases s
  · obtain ⟨hb, hk⟩ := coreTurn_run_flags (hu.symm.trans h)
    exact ⟨hb.trans (coreMoves_busy hm), hk.trans (coreMoves_kv hm)⟩
  all_goals
    cases hu.symm.trans h
  · exact ⟨rfl, rfl⟩
  · exact ⟨rfl, rfl⟩

/-- The step from the visible part of a state shows what the step from the state shows. -/
theorem step_visible {s : State} (hk : s.busy = true → s.kv = true) :
    visibleOutcome (step s.visible) = visibleOutcome (step s) := by
  rw [step, step, stepTurn, stepTurn, turn_visible]
  cases ht : s.turn with
  | submitted t => exact congrArg Host.Outcome.next (visible_visible t)
  | idle t => exact congrArg Host.Outcome.next (visible_visible t)
  | run e t =>
    obtain ⟨hb, hv⟩ := turn_run_flags ht
    exact runEncoded_visible e (hb ▸ hv ▸ hk)

/-- Settles O48: both steps show what the step from the common visible part shows. -/
theorem valuelessRegistersDecideNothing : Obligations.ValuelessRegistersDecideNothing := by
  intro s t hk hv
  have hb : s.busy = t.busy := (congrArg State.busy hv :)
  have hkv : s.kv = t.kv := (congrArg State.kv hv :)
  calc visibleOutcome (step s)
      _ = visibleOutcome (step s.visible) := (step_visible hk).symm
      _ = visibleOutcome (step t.visible) := by rw [hv]
      _ = visibleOutcome (step t) := step_visible (hb ▸ hkv ▸ hk)

end Sys2Proof.Machine
end

section
/-! SUPPORT. The statements about memory (spec/20_memory.md): the byte order of blocks and the canonical form of the ROM's
contents. -/

namespace Sys2Proof.Machine

/-! ### The byte order of blocks (R54, R55) -/

theorem toNat_eq_bytes (w : Word) : w.toNat = (hiByte w).toNat * 256 + (loByte w).toNat := by
  have hw : w.toNat < 2 ^ 16 := w.isLt
  simp only [hiByte, loByte, BitVec.extractLsb'_toNat]
  omega

/-- `a ‖ b` in arithmetic: the left byte is the high one (R11). -/
theorem byteConcat_toNat (a b : Byte) : (byteConcat a b).toNat = a.toNat * 256 + b.toNat := by
  simpa using toNat_eq_bytes (byteConcat a b)

theorem pack_unpack (d : BlockBytes) : pack (unpack d) = d := by
  ext i hi
  simp only [pack, unpack, hiByte_concat, loByte_concat]
  interval_cases i <;> rfl

theorem unpack_pack (b : Block) : unpack (pack b) = b := by
  simp [pack, unpack]

/-- Settles O32: each pair of bytes is a word with its high byte first, and a word is the two bytes it is split into. -/
theorem blockBytesAreBigEndian : Obligations.BlockBytesAreBigEndian :=
  ⟨fun _ => ⟨byteConcat_toNat _ _, byteConcat_toNat _ _, byteConcat_toNat _ _, byteConcat_toNat _ _, pack_unpack _⟩,
    fun b => ⟨rfl, unpack_pack b⟩⟩

/-! ### The canonical form of the ROM's contents (notes/assumptions/13.md) -/

theorem wfFrom_cons {lo k : Nat} {v : Byte} {m : Memory} :
    Memory.wfFrom lo ((k, v) :: m) = true ↔
      lo ≤ k ∧ k < 256 ∧ v ≠ fTable (BitVec.ofNat 8 k) ∧ Memory.wfFrom (k + 1) m = true := by
  simp [Memory.wfFrom, and_assoc]

/-- Below the first address a canonical list may use, the table shows through. -/
theorem read_of_wfFrom {lo : Nat} {m : Memory} (h : Memory.wfFrom lo m = true) {a : Byte} (ha : a.toNat < lo) :
    m.read a = fTable a := by
  induction m generalizing lo with
  | nil => rfl
  | cons cell m ih =>
    obtain ⟨hlo, -, -, hm⟩ := wfFrom_cons.mp h
    rw [read_cons, if_neg (by omega)]
    exact ih hm (by omega)

/-- The first cell of a canonical list is read at its address, where it differs from the table. -/
theorem read_head_of_wfFrom {lo k : Nat} {v : Byte} {m : Memory} (h : Memory.wfFrom lo ((k, v) :: m) = true) :
    (BitVec.ofNat 8 k).toNat = k ∧ Memory.read ((k, v) :: m) (BitVec.ofNat 8 k) = v ∧
      v ≠ fTable (BitVec.ofNat 8 k) := by
  obtain ⟨-, hk, hv, -⟩ := wfFrom_cons.mp h
  have hadr : (BitVec.ofNat 8 k).toNat = k := by simp; omega
  exact ⟨hadr, by rw [read_cons, if_pos hadr.symm], hv⟩

/-- Of two canonical lists that read alike, the other one's first address is no smaller than this one's: below it every
read is the table's. -/
theorem le_of_read_eq {lo lo' k : Nat} {v : Byte} {m m' : Memory} (h : Memory.wfFrom lo ((k, v) :: m) = true)
    (h' : Memory.wfFrom lo' m' = true) (heq : ∀ a, Memory.read ((k, v) :: m) a = m'.read a) : lo' ≤ k := by
  obtain ⟨hadr, hread, hv⟩ := read_head_of_wfFrom h
  by_contra hlt
  exact hv (hread.symm.trans ((heq _).trans (read_of_wfFrom h' (by omega))))

theorem wfFrom_head {lo k : Nat} {v : Byte} {m : Memory} (h : Memory.wfFrom lo ((k, v) :: m) = true) :
    Memory.wfFrom k ((k, v) :: m) = true := by
  obtain ⟨-, hk, hv, hm⟩ := wfFrom_cons.mp h
  exact wfFrom_cons.mpr ⟨le_rfl, hk, hv, hm⟩

/-- A list that holds a cell does not read as the table everywhere. -/
theorem not_read_eq_nil {lo k : Nat} {v : Byte} {m : Memory} (h : Memory.wfFrom lo ((k, v) :: m) = true) :
    ¬ ∀ a, Memory.read ((k, v) :: m) a = Memory.read [] a := fun heq =>
  absurd (le_of_read_eq (lo' := k + 1) h rfl heq) (by omega)

/-- Canonical lists with the same first address that read alike have the same first byte, and their tails read alike:
each tail reads as the table at that address. -/
theorem cons_read_eq {lo k : Nat} {v v' : Byte} {m m' : Memory} (h : Memory.wfFrom lo ((k, v) :: m) = true)
    (h' : Memory.wfFrom lo ((k, v') :: m') = true)
    (heq : ∀ a, Memory.read ((k, v) :: m) a = Memory.read ((k, v') :: m') a) :
    v = v' ∧ ∀ a, m.read a = m'.read a := by
  obtain ⟨-, -, -, hm⟩ := wfFrom_cons.mp h
  obtain ⟨-, -, -, hm'⟩ := wfFrom_cons.mp h'
  constructor
  · obtain ⟨-, hread, -⟩ := read_head_of_wfFrom h
    obtain ⟨-, hread', -⟩ := read_head_of_wfFrom h'
    exact hread.symm.trans ((heq _).trans hread')
  · intro a
    by_cases hk : k = a.toNat
    · rw [read_of_wfFrom hm (by omega), read_of_wfFrom hm' (by omega)]
    · simpa [read_cons, hk] using heq a

theorem eq_of_read_eq {lo lo' : Nat} {m m' : Memory} (h : Memory.wfFrom lo m = true)
    (h' : Memory.wfFrom lo' m' = true) (heq : ∀ a, m.read a = m'.read a) : m = m' := by
  induction m generalizing m' lo lo' with
  | nil =>
    cases m' with
    | nil => rfl
    | cons cell' m' => exact absurd (fun a => (heq a).symm) (not_read_eq_nil h')
  | cons cell m ih =>
    cases m' with
    | nil => exact absurd heq (not_read_eq_nil h)
    | cons cell' m' =>
      obtain ⟨k, v⟩ := cell
      obtain ⟨k', v'⟩ := cell'
      have hk : k = k' := Nat.le_antisymm (le_of_read_eq h' (wfFrom_head h) fun a => (heq a).symm)
        (le_of_read_eq h (wfFrom_head h') heq)
      subst hk
      obtain ⟨rfl, htail⟩ := cons_read_eq (wfFrom_head h) (wfFrom_head h') heq
      obtain ⟨-, -, -, hm⟩ := wfFrom_cons.mp h
      obtain ⟨-, -, -, hm'⟩ := wfFrom_cons.mp h'
      rw [ih hm hm' htail]

/-- Settles O33, by induction on the lists: the first cells agree, since each list's first address is the lowest at which
it does not read as the table, and then so do the tails. -/
theorem canonicalMemoriesAreEqual : Obligations.CanonicalMemoriesAreEqual :=
  fun _ _ h h' heq => eq_of_read_eq (lo := 0) (lo' := 0) h h' heq

end Sys2Proof.Machine
end

section
/-! SUPPORT. The order of commands (spec/20_memory.md R63, spec/43_context.md R181, R184): how an accepted command is
answered step by step, and a stream of submitted commands. -/

namespace Sys2Proof.Machine

/-! ### An operation, round by round (R150, R152) -/

/-- The round an operation runs after `n` rounds (R150): 1 upwards when encrypting, 32 downwards when decrypting. -/
def roundNumber : Direction → Nat → Nat
  | .encrypt, n => n + 1
  | .decrypt, n => 32 - n

/-- The words and the cursor after `n` rounds in the operation's direction (R152). -/
def dirAfter (dir : Direction) (rom : Memory) (k : Key) (b : Block) (n : Nat) : Block × Cursor :=
  match dir with
  | .encrypt => encAfter rom k b n
  | .decrypt => decAfter rom k b n

/-- The block an operation answers with (R152): Enc_K or Dec_K. -/
def dirBlock (dir : Direction) (rom : Memory) (k : Key) (p : BlockBytes) : BlockBytes :=
  pack (dirAfter dir rom k (unpack p) 32).1

@[simp] theorem dirBlock_encrypt : dirBlock .encrypt = encBlock := rfl

@[simp] theorem dirBlock_decrypt : dirBlock .decrypt = decBlock := rfl

theorem dirAfter_zero (dir : Direction) (rom : Memory) (k : Key) (b : Block) :
    dirAfter dir rom k b 0 = (b, startCursor dir) := by
  cases dir <;> rfl

theorem dirAfter_succ (dir : Direction) (rom : Memory) (k : Key) (b : Block) (n : Nat) :
    dirAfter dir rom k b (n + 1) = dirRound dir rom k (roundNumber dir n) (dirAfter dir rom k b n) := by
  cases dir <;> rfl

theorem startRound_toNat (dir : Direction) : (startRound dir).toNat = roundNumber dir 0 := by
  cases dir <;> rfl

/-- The round number tells the last round from the others (R150). -/
theorem eq_lastRound_iff {dir : Direction} {r : BitVec 6} {n : Nat} (hn : n < 32)
    (hr : r.toNat = roundNumber dir n) : r = lastRound dir ↔ n = 31 := by
  cases dir with
  | encrypt =>
    simp only [roundNumber, lastRound] at hr ⊢
    bv_omega
  | decrypt =>
    simp only [roundNumber, lastRound] at hr ⊢
    bv_omega

theorem nextRound_toNat {dir : Direction} {r : BitVec 6} {n : Nat} (hn : n < 31)
    (hr : r.toNat = roundNumber dir n) : (nextRound dir r).toNat = roundNumber dir (n + 1) := by
  cases dir with
  | encrypt =>
    simp only [roundNumber, nextRound] at hr ⊢
    bv_omega
  | decrypt =>
    simp only [roundNumber, nextRound] at hr ⊢
    bv_omega

/-- An operation on the block `p` is in progress and `n` of its 32 rounds are done. -/
structure State.InRound (s : State) (p : BlockBytes) (n : Nat) : Prop where
  busy   : s.busy = true
  kv     : s.kv = true
  notAll : n < 32
  rc     : s.rc.toNat = roundNumber s.dir n
  words  : s.w = (dirAfter s.dir s.rom s.key (unpack p) n).1
  cursor : s.cur = cursorBits (dirAfter s.dir s.rom s.key (unpack p) n).2

theorem State.InRound.roundReady {s : State} {p : BlockBytes} {n : Nat} (h : s.InRound p n) :
    s.RoundReady (dirAfter s.dir s.rom s.key (unpack p) n).2 := by
  have hn := h.notAll
  have hrc := h.rc
  have hrange : 1 ≤ s.rc.toNat ∧ s.rc.toNat ≤ 32 := by
    cases hd : s.dir <;> simp only [hd, roundNumber] at hrc <;> omega
  exact ⟨h.busy, hrange.1, hrange.2, by rw [h.cursor, cursorBits_toNat]⟩

theorem startOperation_inRound {s : State} (hk : s.kv = true) (dir : Direction) (d : BlockBytes) :
    (s.startOperation dir d).InRound d 0 where
  busy := rfl
  kv := hk
  notAll := by decide
  rc := startRound_toNat dir
  words := congrArg Prod.fst (dirAfter_zero dir s.rom s.key (unpack d)).symm
  cursor := congrArg (cursorBits ∘ Prod.snd) (dirAfter_zero dir s.rom s.key (unpack d)).symm

/-! ### The core's steps -/

/-- An ACCEPT step: the pending command is consumed and answered (R171). -/
theorem step_accept {s t : State} {c : HostCmd} (hm : CoreMoves s t) (hb : t.busy = false)
    (hp : t.pending = some c) (hc : c.agrees = true) :
    step s = .next (({ t with pending := none } : State).accept c.op c.data) := by
  have hd : decode (.hostCmd c) = .ok (decodeOp c.op c.data) := by simp [decode, decodeHostCmd, hc]
  rw [step, stepTurn, turn_of_coreMoves hm, coreTurn_accept hb hp]
  simp only [runEncoded_ok hd, exec_decodeOp_eq, afterExec]

/-- A ROUND step: the round of the operation's direction writes W and CUR, then RC, BUSY and the response follow (R150). -/
theorem step_round {s t : State} {c : Cursor} (hm : CoreMoves s t) (hr : t.RoundReady c) :
    step s = .next (t.writeRound (dirRound t.dir t.rom t.key t.rc.toNat (t.w, c))).finishRound := by
  have hx : exec (decodeRoundOp (roundSelect t.dir t.rc)) t =
      .next (t.writeRound (dirRound t.dir t.rom t.key t.rc.toNat (t.w, c))) := exec_selected_rule hr
  have hd : decode (.roundOp (roundSelect t.dir t.rc)) = .ok (decodeRoundOp (roundSelect t.dir t.rc)) := rfl
  rw [step, stepTurn, turn_of_coreMoves hm, coreTurn_busy hr.busy]
  simp only [runEncoded_ok hd, hx, afterExec]

/-- A ROUND step of an operation after `n` rounds writes what `n + 1` rounds give. -/
theorem State.InRound.step {s t : State} {p : BlockBytes} {n : Nat} (hm : CoreMoves s t) (h : t.InRound p n) :
    step s = .next (t.writeRound (dirAfter t.dir t.rom t.key (unpack p) (n + 1))).finishRound := by
  rw [step_round hm h.roundReady, dirAfter_succ, h.rc, h.words]

/-- A round that is not the last leaves the operation one round further on. -/
theorem State.InRound.finishRound {s : State} {p : BlockBytes} {n : Nat} (h : s.InRound p n) (hn : n < 31) :
    ((s.writeRound (dirAfter s.dir s.rom s.key (unpack p) (n + 1))).finishRound).InRound p (n + 1) ∧
      ((s.writeRound (dirAfter s.dir s.rom s.key (unpack p) (n + 1))).finishRound).outbox = s.outbox := by
  obtain ⟨hlast, -⟩ | ⟨-, hf⟩ := finishRound_cases (s.writeRound (dirAfter s.dir s.rom s.key (unpack p) (n + 1)))
  · have := (eq_lastRound_iff h.notAll h.rc).mp hlast
    omega
  · rw [hf]
    exact ⟨⟨h.busy, h.kv, by omega, nextRound_toNat hn h.rc, rfl, rfl⟩, rfl⟩

/-- The last round ends the operation with its block as the response (R178). -/
theorem State.InRound.finishLastRound {s : State} {p : BlockBytes} (h : s.InRound p 31) :
    (s.writeRound (dirAfter s.dir s.rom s.key (unpack p) 32)).finishRound =
      ({ s.writeRound (dirAfter s.dir s.rom s.key (unpack p) 32) with busy := false } : State).respond .ok
        (dirBlock s.dir s.rom s.key p).toList := by
  obtain ⟨-, hf⟩ | ⟨hlast, -⟩ := finishRound_cases (s.writeRound (dirAfter s.dir s.rom s.key (unpack p) 32))
  · exact hf
  · exact absurd ((eq_lastRound_iff h.notAll h.rc).mpr rfl) hlast

/-! ### Commands at the port (R170) -/

/-- The commands `cs` are the host's at the port: the first is pending and the others wait to be submitted. -/
def State.AtPort (s : State) (cs : List HostCmd) : Prop :=
  s.pending = cs.head? ∧ s.sched = cs.tail.map .submit

/-- The same state with the commands `cs` at the port. -/
def State.withPort (s : State) (cs : List HostCmd) : State :=
  { s with pending := cs.head?, sched := cs.tail.map .submit }

theorem withPort_atPort (s : State) (cs : List HostCmd) : (s.withPort cs).AtPort cs := ⟨rfl, rfl⟩

/-- With the first command pending, or none to come, it is the core's turn. -/
theorem State.AtPort.coreMoves {s : State} {cs : List HostCmd} (h : s.AtPort cs) : CoreMoves s s := by
  obtain ⟨hp, hs⟩ := h
  match cs with
  | [] | [_] => exact .noEvent hs
  | c :: c' :: cs => exact .waiting c' c (cs.map .submit) hs hp

/-- A core with nothing pending takes the first command submitted, in no step where there is none. -/
theorem submit_first {s : State} {cs : List HostCmd} (hp : s.pending = none) (hs : s.sched = cs.map .submit) :
    ∃ n, runSteps n s = .next (s.withPort cs) := by
  cases cs with
  | nil =>
    refine ⟨0, congrArg Host.Outcome.next ?_⟩
    rw [State.withPort, List.head?_nil, List.tail_nil, ← hp, ← hs]
  | cons c cs =>
    refine ⟨1, runSteps_of_step 0 ?_⟩
    simp [step, stepTurn, State.turn, State.withPort, hp, hs]

/-! ### From the ACCEPT step to the answer -/

/-- The accepted command is answered as `x` says after `m` more steps of the core, and `out` is what was delivered before
its response. With no step left the response is the last thing delivered; else an operation has `m` rounds to go. -/
def State.Answering (s : State) (out : List PortOut) (x : Context × Response) : Nat → Prop
  | 0 => s.busy = false ∧ s.context = x.1 ∧ s.outbox = out ++ [.response x.2]
  | m + 1 => s.outbox = out ∧ ∃ p n, n + m = 31 ∧ s.InRound p n ∧
      x = (some s.key, ⟨0x00#8, (dirBlock s.dir s.rom s.key p).toList⟩)

/-- What is pending or still to be submitted has no part in how an accepted command is answered. -/
theorem State.Answering.withPort {s : State} {out : List PortOut} {x : Context × Response} {m : Nat}
    (h : s.Answering out x m) (cs : List HostCmd) : (s.withPort cs).Answering out x m := by
  cases m with
  | zero => exact h
  | succ m =>
    obtain ⟨ho, p, n, hn, hr, hx⟩ := h
    exact ⟨ho, p, n, hn, { hr with }, hx⟩

/-- The core's step brings the answer one step nearer, and takes nothing from what is pending or still to come. -/
theorem State.Answering.step {s t : State} {out : List PortOut} {x : Context × Response} {m : Nat}
    (hm : CoreMoves s t) (h : t.Answering out x (m + 1)) :
    ∃ u, step s = .next u ∧ u.Answering out x m ∧ u.rom = t.rom ∧ u.pending = t.pending ∧ u.sched = t.sched := by
  obtain ⟨ho, p, n, hn, hr, hx⟩ := h
  refine ⟨_, hr.step hm, ?_, by simp, by simp, by simp⟩
  cases m with
  | zero =>
    obtain rfl : n = 31 := by omega
    rw [hr.finishLastRound, hx]
    exact ⟨rfl, by simp [State.context, hr.kv], by simp [ho, Status.code]⟩
  | succ m =>
    obtain ⟨hr', ho'⟩ := hr.finishRound (by omega)
    exact ⟨ho'.trans ho, p, n + 1, by omega, hr', by simpa using hx⟩

/-- ACCEPT of ENCRYPT or DECRYPT answers with an error at once, or starts the 32 rounds that give the block. -/
theorem acceptOperation_answering {s : State} (hb : s.busy = false) (dir : Direction) (d : List Byte) :
    (s.acceptOperation dir d).Answering s.outbox (s.context, transactBlock s.context d (dirBlock dir s.rom))
      (if s.context.isSome ∧ d.length = 8 then 32 else 0) := by
  obtain ⟨hk, ha⟩ | ⟨hk, hlen, ha⟩ | ⟨hk, hlen, ha⟩ := acceptOperation_cases s dir d
  · have hctx : s.context = none := by simp [State.context, hk]
    rw [ha, hctx, if_neg (by simp)]
    exact ⟨hb, hctx, rfl⟩
  · have hctx : s.context = some s.key := by simp [State.context, hk]
    rw [ha, hctx, if_pos ⟨rfl, hlen⟩]
    exact ⟨rfl, _, 0, rfl, startOperation_inRound hk dir _, by simp [transactBlock, hlen]⟩
  · have hctx : s.context = some s.key := by simp [State.context, hk]
    rw [ha, hctx, if_neg (by simp [hlen])]
    exact ⟨hb, hctx, by simp [transactBlock, hlen, Status.code]⟩

@[simp] theorem raiseError_context (s : State) (e : Status) : (s.raiseError e).context = s.context := rfl

theorem loadKey_answering {s : State} (hb : s.busy = false) {c : HostCmd} (hc : c.op = 0x01#8) :
    (s.loadKey c.data).Answering s.outbox (transact s.rom s.context c) 0 := by
  obtain ⟨hlen, hl⟩ | ⟨hlen, hl⟩ := loadKey_cases s c.data
  · rw [hl]
    exact ⟨hb, by simp [transact, hc, hlen, State.context], by simp [transact, hc, hlen, Status.code]⟩
  · rw [hl]
    exact ⟨hb, by simp [transact, hc, hlen], by simp [transact, hc, hlen, Status.code]⟩

/-- An accepted command is answered as Exec answers it (R184), after the steps R237 counts, the ACCEPT step among them. -/
theorem accept_answering {s : State} (hb : s.busy = false) (c : HostCmd) :
    (s.accept c.op c.data).Answering s.outbox (transact s.rom s.context c) (stepsOf s.context c - 1) := by
  by_cases h1 : c.op = 0x01#8
  · simpa [State.accept, stepsOf, h1] using loadKey_answering hb h1
  by_cases h2 : c.op = 0x02#8
  · simpa [State.accept, transact, stepsOf, h2, apply_ite (· - 1)] using acceptOperation_answering hb .encrypt c.data
  by_cases h3 : c.op = 0x03#8
  · simpa [State.accept, transact, stepsOf, h3, apply_ite (· - 1)] using acceptOperation_answering hb .decrypt c.data
  · have hill : (s.raiseError .illegalCommand).Answering s.outbox (s.context, ⟨0x04#8, []⟩) 0 := ⟨hb, rfl, rfl⟩
    simpa only [State.accept, transact, stepsOf, h1, h2, h3, false_or, false_and, if_false] using hill

@[simp] theorem accept_rom (s : State) (op : Byte) (d : List Byte) : (s.accept op d).rom = s.rom := by
  unfold State.accept
  repeat' split
  all_goals simp

@[simp] theorem accept_pending (s : State) (op : Byte) (d : List Byte) : (s.accept op d).pending = s.pending := by
  unfold State.accept
  repeat' split
  all_goals simp

@[simp] theorem accept_sched (s : State) (op : Byte) (d : List Byte) : (s.accept op d).sched = s.sched := by
  unfold State.accept
  repeat' split
  all_goals simp

/-- The ACCEPT step of an idle core begins the answer Exec gives, and leaves nothing pending (R171). -/
theorem step_accept_answering {s t : State} {c : HostCmd} (hm : CoreMoves s t) (hb : t.busy = false)
    (hp : t.pending = some c) (hc : c.agrees = true) :
    ∃ u, step s = .next u ∧ u.Answering t.outbox (transact t.rom t.context c) (stepsOf t.context c - 1) ∧
      u.rom = t.rom ∧ u.pending = none ∧ u.sched = t.sched :=
  ⟨_, step_accept hm hb hp hc, accept_answering (s := { t with pending := none }) hb c, by simp, by simp, by simp⟩

/-! ### A stream of commands (R63) -/

/-- The core runs the accepted command to its answer, whatever the host has at the port meanwhile. -/
theorem State.Answering.run {s : State} {cs : List HostCmd} {out : List PortOut} {x : Context × Response} {m : Nat}
    (hq : s.AtPort cs) (h : s.Answering out x m) :
    ∃ t, runSteps m s = .next t ∧ t.Answering out x 0 ∧ t.rom = s.rom ∧ t.AtPort cs := by
  induction m generalizing s with
  | zero => exact ⟨s, rfl, h, rfl, hq⟩
  | succ m ih =>
    obtain ⟨u, hu, ha, hrom, hpend, hsched⟩ := h.step hq.coreMoves
    obtain ⟨t, ht, hans, hrom', hq'⟩ := ih ⟨hpend.trans hq.1, hsched.trans hq.2⟩ ha
    exact ⟨t, (runSteps_of_step m hu).trans ht, hans, hrom'.trans hrom, hq'⟩

/-- An idle core with commands at the port answers the first as Exec does, and has the others at the port again. -/
theorem answer_first {s : State} {c : HostCmd} {cs : List HostCmd} (hb : s.busy = false) (hq : s.AtPort (c :: cs))
    (hc : c.agrees = true) :
    ∃ n t, runSteps n s = .next t ∧ t.Answering s.outbox (transact s.rom s.context c) 0 ∧ t.rom = s.rom ∧
      t.AtPort cs := by
  obtain ⟨u, hu, hans, hurom, hupend, husched⟩ := step_accept_answering hq.coreMoves hb hq.1 hc
  obtain ⟨n, hn⟩ := submit_first hupend (husched.trans hq.2)
  obtain ⟨t, ht, hdone, htrom, htq⟩ := (hans.withPort cs).run (withPort_atPort u cs)
  exact ⟨_, t, (runSteps_of_step _ hu).trans ((runSteps_add _ hn).trans ht), hdone, htrom.trans hurom, htq⟩

/-- An idle core answers all the commands at the port in order, by induction on how many there are. -/
theorem answer_all {cs : List HostCmd} (hc : ∀ c ∈ cs, c.agrees = true) {s : State} (hb : s.busy = false)
    (hq : s.AtPort cs) :
    ∃ n t, runSteps n s = .next t ∧ t.busy = false ∧ t.AtPort [] ∧ t.rom = s.rom ∧
      t.context = (transactAll s.rom s.context cs).1 ∧
      t.outbox = s.outbox ++ (transactAll s.rom s.context cs).2.map .response := by
  induction cs generalizing s with
  | nil => exact ⟨0, s, rfl, hb, hq, rfl, rfl, (List.append_nil _).symm⟩
  | cons c cs ih =>
    obtain ⟨hcc, hcs⟩ := List.forall_mem_cons.mp hc
    obtain ⟨n, u, hn, ⟨hub, huctx, huout⟩, hurom, huq⟩ := answer_first hb hq hcc
    obtain ⟨m, t, hm, htb, htq, htrom, htctx, htout⟩ := ih hcs hub huq
    rw [hurom, huctx] at htctx htout
    refine ⟨n + m, t, (runSteps_add m hn).trans hm, htb, htq, htrom.trans hurom, htctx, ?_⟩
    simp [htout, huout, transactAll]

/-- Settles O54: the first command becomes pending, and the core then answers one command after another. -/
theorem commandStreamRefinesExec : Obligations.CommandStreamRefinesExec := by
  intro cs s hb hp hs hc
  obtain ⟨n, hn⟩ := submit_first hp hs
  obtain ⟨m, t, hm, htb, ⟨htp, hts⟩, htrom, htctx, htout⟩ :=
    answer_all hc (s := s.withPort cs) hb (withPort_atPort s cs)
  exact ⟨n + m, t, (runSteps_add m hn).trans hm, htb, htp, hts, htrom, htctx, htout⟩

end Sys2Proof.Machine
end

section
/-! SUPPORT. The statements about the encodings (spec/30_encoding.md): what a step delivers in the format RSP, the words
of the layouts, the round select, and the assembler's command lines. -/

namespace Sys2Proof.Machine

/-! ### What a step delivers (R72, R200) -/

/-- What one step may add to the outbox: nothing, a value of SR, a status alone, or OK with a block. -/
inductive Delivery : List PortOut → Prop where
  | nothing : Delivery []
  | sr (v : Byte) : Delivery [.sr v]
  | status (st : Status) : Delivery [.response ⟨st.code, []⟩]
  | block (b : BlockBytes) : Delivery [.response ⟨Status.ok.code, b.toList⟩]

theorem setkeyAnswer_delivery (d : List Byte) : Delivery (setkeyAnswer d) := by
  unfold setkeyAnswer
  split
  · exact .status .ok
  · exact .status .invalidKeySize

theorem acceptAnswer_delivery (kv : Bool) (d : List Byte) : Delivery (acceptAnswer kv d) := by
  unfold acceptAnswer
  split
  · exact .status .noKey
  split
  · exact .nothing
  · exact .status .invalidBlockSize

theorem delivered_delivery (i : Instr) (kv busy : Bool) : Delivery (delivered i kv busy) := by
  cases i with
  | setkey d => exact setkeyAnswer_delivery d
  | encrypt d | decrypt d => exact acceptAnswer_delivery kv d
  | reserved00 | reserved04 | reserved08 | reserved10 | reserved20 | reserved40 | reserved80 =>
    exact .status .illegalCommand
  | ruleA | ruleB | ruleAInv | ruleBInv | g | gInv | romRead | reset => exact .nothing
  | readSr => exact .sr _

/-- The end of a ROUND step delivers the operation's block, or nothing (R150, R178). -/
theorem finishRound_outbox (s : State) : ∃ out, s.finishRound.outbox = s.outbox ++ out ∧ Delivery out := by
  obtain ⟨_, h⟩ | ⟨_, h⟩ := finishRound_cases s
  · exact ⟨_, by rw [h, respond_outbox], .block (pack s.w)⟩
  · exact ⟨[], by simp [h], .nothing⟩

theorem coreMoves_outbox {s t : State} (h : CoreMoves s t) : t.outbox = s.outbox := by
  obtain ⟨es, rfl, -⟩ := coreMoves_eq h
  rfl

/-- A step that completes adds one delivery at the end of the outbox, over the cases of a step. -/
theorem step_outbox {s t : State} (h : step s = .next t) : ∃ out, t.outbox = s.outbox ++ out ∧ Delivery out := by
  obtain ⟨c, es, _, _, rfl⟩ | ⟨es, _, rfl⟩ | ⟨es, _, rfl⟩ | ⟨u, es, o, _, rfl⟩ | ⟨hm, _, _⟩ |
    ⟨u, c, hm, _, _, _, hx⟩ | ⟨u, v, hm, _, hv, rfl⟩ := step_next_cases h
  · exact ⟨[], by simp, .nothing⟩
  · exact ⟨_, rfl, .sr s.srView⟩
  · exact ⟨[], by simp, .nothing⟩
  · exact ⟨[], by simp, .nothing⟩
  · exact ⟨[], by simp [coreMoves_outbox hm], .nothing⟩
  · exact ⟨_, by rw [exec_outbox hx, coreMoves_outbox hm], delivered_delivery _ _ _⟩
  · have hrule : v.outbox = s.outbox :=
      (roundRule_outbox (decodeRoundOp_mem _) hv).trans (coreMoves_outbox hm)
    rw [← hrule]
    exact finishRound_outbox v

theorem code_le_four (st : Status) : st.code.toNat ≤ 4 := by
  cases st <;> decide

/-- Settles O42: the kinds of a delivery are those the statement lists. -/
theorem stepDeliversAtMostOne : Obligations.StepDeliversAtMostOne := by
  intro s t h
  obtain ⟨out, hout, hd⟩ := step_outbox h
  cases hd with
  | nothing => exact .inl (by simpa using hout)
  | sr v => exact .inr (.inl ⟨v, hout⟩)
  | status st => exact .inr (.inr ⟨st.code, [], hout, code_le_four st, .inl rfl⟩)
  | block b => exact .inr (.inr ⟨_, _, hout, code_le_four .ok, .inr ⟨rfl, b.length_toList⟩⟩)

/-! ### The written words and the round select (R71, R74 to R76) -/

/-- A command whose LEN and bytes agree decodes by its OP alone (R71, R76). -/
theorem decode_hostCmd {c : HostCmd} (h : c.agrees = true) : decode (.hostCmd c) = .ok (decodeOp c.op c.data) :=
  if_pos h

/-- Every round select decodes (R74). -/
theorem decode_roundOp (mop : BitVec 2) : decode (.roundOp mop) = .ok (decodeRoundOp mop) := rfl

/-- Settles O1: in each of the five commands LEN is the number of bytes, and OP then gives the instruction; the selects
and the address are read off their tables. -/
theorem writtenWordsDecode : Obligations.WrittenWordsDecode :=
  ⟨decode_hostCmd (by decide), decode_hostCmd (by decide), decode_hostCmd (by decide), decode_hostCmd (by decide),
    decode_hostCmd (by decide), decode_roundOp 0b01#2, decode_roundOp 0b10#2, rfl, rfl⟩

/-- Settles O6: the select of each round, as `selected_rule` gives it, is what the decoder reads. -/
theorem roundSelectsItsRule : Obligations.RoundSelectsItsRule := by
  intro r hl hh
  have hsel := selected_rule r hl hh
  simp only [decode_roundOp, Except.ok.injEq]
  constructor
  · intro hr
    rwa [if_pos (by omega)] at hsel
  · intro hr
    rwa [if_neg (by omega)] at hsel

/-! ### The command lines (R81, R82) -/

/-- LEN in arithmetic: the high byte of the command word (R71). -/
theorem len_toNat (c : HostCmd) : c.len.toNat = c.cmd.toNat / 256 := by
  have hcmd : c.cmd.toNat < 2 ^ 16 := c.cmd.isLt
  simp only [HostCmd.len, BitVec.extractLsb'_toNat]
  omega

theorem agrees_iff {c : HostCmd} : c.agrees = true ↔ c.cmd.toNat / 256 = c.data.length := by
  simp [HostCmd.agrees, len_toNat, eq_comm]

/-- The word of a spelled command in arithmetic: LEN above OP (R81). -/
theorem cmdWord_eq (op : Byte) {bs : List Byte} (h : bs.length ≤ 255) :
    cmdWord op bs = BitVec.ofNat 16 (bs.length * 256 + op.toNat) := by
  apply BitVec.eq_of_toNat_eq
  have hop : op.toNat < 2 ^ 8 := op.isLt
  have hlen : bs.length % 2 ^ 8 = bs.length := Nat.mod_eq_of_lt (Nat.lt_succ_of_le h)
  simp only [cmdWord, byteConcat_toNat, BitVec.toNat_ofNat, hlen]
  omega

theorem assembleCmd_of_len {w : Word} {bs : List Byte} (h : bs.length ≤ 255) (hw : w.toNat / 256 = bs.length) :
    assembleCmd w bs = some (.submit ⟨w, bs⟩) :=
  if_pos ⟨h, agrees_iff.mpr hw⟩

theorem assembleCmd_of_len_ne {w : Word} {bs : List Byte} (hw : w.toNat / 256 ≠ bs.length) :
    assembleCmd w bs = none :=
  if_neg fun ⟨_, ha⟩ => hw (agrees_iff.mp ha)

/-- Settles O7: the three mnemonics assemble as CMD with the word of their OP, and CMD checks the word's high byte. -/
theorem assemblerSpellsCommands : Obligations.AssemblerSpellsCommands := by
  intro bs h
  exact ⟨congrArg (assembleCmd · bs) (cmdWord_eq 0x01#8 h), congrArg (assembleCmd · bs) (cmdWord_eq 0x02#8 h),
    congrArg (assembleCmd · bs) (cmdWord_eq 0x03#8 h), fun _ => assembleCmd_of_len h, fun _ => assembleCmd_of_len_ne⟩

end Sys2Proof.Machine
end

section
/-! SUPPORT. The statements about the F-table (spec/40_ftable.md): the grid against the canonical string, the read of the
ROM, the table as a permutation, and that no step writes the ROM. -/

namespace Sys2Proof.Machine

/-! ### The table and its canonical string (R101, R102) -/

/-- Row by row, the grid of R101 holds the next sixteen bytes of the string. -/
theorem fTableRow_eq_string : ∀ r < 16,
    fTableRow r = (List.range 16).map fun c => BitVec.ofNat 8 (fTableStringByte (16 * r + c)) := by
  decide +kernel

theorem fTable_eq_string (a : Byte) : fTable a = BitVec.ofNat 8 (fTableStringByte a.toNat) := by
  have hrow : a.toNat / 16 < 16 := by omega
  have hcol : a.toNat % 16 < 16 := Nat.mod_lt _ (by decide)
  rw [fTable, fTableRow_eq_string _ hrow]
  simp [hcol, Nat.div_add_mod]

/-! ### The read (R75, R100) -/

theorem decode_romRd (a : Byte) : decode (.unitOp (.romRd a)) = .ok (.romRead a) := rfl

theorem exec_romRead (a : Byte) (s : State) :
    exec (.romRead a) s = .next { s with unitOut := some (.byte (s.rom.read a)) } := rfl

/-- Settles O17: the decoder takes every address, and FROM records the byte it reads. -/
theorem romReadHasNoSideEffect : Obligations.RomReadHasNoSideEffect :=
  fun s a => ⟨decode_romRd a, exec_romRead a s⟩

/-- Settles O16: with no cell listed the read is the table's, and the table is the string's. -/
theorem romReadGivesTheTable : Obligations.RomReadGivesTheTable := by
  intro s a hrom
  rw [exec_romRead, hrom, read_nil, fTable_eq_string]

/-! ### The table as a permutation (R103) -/

/-- The address at which the rows of the grid, one after the other, hold a byte. -/
def fTableAddress (b : Byte) : Byte := BitVec.ofNat 8 (((List.range 16).flatMap fTableRow).idxOf b)

theorem fTable_fTableAddress : ∀ b, fTable (fTableAddress b) = b := by
  decide +kernel

/-- Every byte stands somewhere in the table, and there are no more addresses than bytes. -/
theorem fTable_bijective : Function.Bijective fTable :=
  (Function.RightInverse.surjective fTable_fTableAddress).bijective_of_finite

theorem fTable_sum : ((List.range 256).map fun n => (fTable (BitVec.ofNat 8 n)).toNat).sum = 32640 := by
  decide +kernel

theorem fTable_ne_self : ∀ a, fTable a ≠ a := by
  decide +kernel

/-- Settles O18: the ROM as built reads as the table, which has an inverse, and whose entries are summed and compared
with their addresses. -/
theorem tableIsAPermutation : Obligations.TableIsAPermutation :=
  ⟨fTable_bijective, fTable_sum, fTable_ne_self, rfl⟩

/-! ### No step writes the ROM (R31, R105) -/

theorem coreMoves_rom {s t : State} (h : CoreMoves s t) : t.rom = s.rom := by
  obtain ⟨es, rfl, -⟩ := coreMoves_eq h
  rfl

/-- No step writes the ROM, over the cases of a step: the host's operations do not, and an ACCEPT or ROUND step only runs
an instruction. -/
theorem step_rom {s t : State} (h : step s = .next t) : t.rom = s.rom := by
  obtain ⟨c, es, _, _, rfl⟩ | ⟨es, _, rfl⟩ | ⟨es, _, rfl⟩ | ⟨u, es, o, _, rfl⟩ | ⟨hm, _, _⟩ |
    ⟨u, c, hm, _, _, _, hx⟩ | ⟨u, v, hm, _, hv, rfl⟩ := step_next_cases h
  · rfl
  · rfl
  · rfl
  · rfl
  · exact coreMoves_rom hm
  · obtain ⟨hrom, _⟩ := exec_rom_sched hx
    exact hrom.trans (coreMoves_rom hm :)
  · obtain ⟨hrom, _⟩ := exec_rom_sched hv
    rw [finishRound_rom, hrom, coreMoves_rom hm]

/-- Settles O34: a step keeps the ROM's cells, so every read of it too; at reset no cell is listed, so the reads are the
table's. -/
theorem romNeverChanges : Obligations.RomNeverChanges := by
  constructor
  · intro s t h
    exact ⟨step_rom h, fun a => by rw [step_rom h]⟩
  · intro a
    rw [reset_rom, read_nil, fTable_eq_string]

end Sys2Proof.Machine
end

section
/-! SUPPORT. The statements about the G-permutation (spec/41_gperm.md): its four lookups, each with its own inverse, and
the walk of the cursor over the key. -/

namespace Sys2Proof.Machine

/-! ### One lookup (R120, R121) -/

/-- One line of R120's pseudocode, with the key byte it reads: from the last two bytes to the next two. -/
def gLookup (rom : Memory) (kb : Byte) (p : Byte × Byte) : Byte × Byte := (p.2, rom.read (p.2 ^^^ kb) ^^^ p.1)

/-- One line of R121's pseudocode: the two bytes before. -/
def gLookupInv (rom : Memory) (kb : Byte) (p : Byte × Byte) : Byte × Byte := (rom.read (p.1 ^^^ kb) ^^^ p.2, p.1)

/-- The byte a lookup passes on is the one its inverse reads at, so the same table entry is added twice. -/
@[simp] theorem gLookupInv_gLookup (rom : Memory) (kb : Byte) (p : Byte × Byte) :
    gLookupInv rom kb (gLookup rom kb p) = p := by
  simp [gLookup, gLookupInv]

@[simp] theorem gLookup_gLookupInv (rom : Memory) (kb : Byte) (p : Byte × Byte) :
    gLookup rom kb (gLookupInv rom kb p) = p := by
  simp [gLookup, gLookupInv]

theorem gForward_word (rom : Memory) (k : Key) (w : Word) (c : Cursor) :
    (gForward rom k w c).1 = Function.uncurry byteConcat
      (gLookup rom (k.get (cursorNext (cursorNext (cursorNext c)))) (gLookup rom (k.get (cursorNext (cursorNext c)))
        (gLookup rom (k.get (cursorNext c)) (gLookup rom (k.get c) (hiByte w, loByte w))))) := rfl

theorem gInverse_word (rom : Memory) (k : Key) (w : Word) (c : Cursor) :
    (gInverse rom k w c).1 = Function.uncurry byteConcat
      (gLookupInv rom (k.get (cursorPrev (cursorPrev (cursorPrev (cursorPrev c)))))
        (gLookupInv rom (k.get (cursorPrev (cursorPrev (cursorPrev c))))
          (gLookupInv rom (k.get (cursorPrev (cursorPrev c)))
            (gLookupInv rom (k.get (cursorPrev c)) (hiByte w, loByte w))))) := rfl

/-! ### The laws (R122 to R124) -/

@[simp] theorem bytes_uncurry_concat (p : Byte × Byte) :
    (hiByte (Function.uncurry byteConcat p), loByte (Function.uncurry byteConcat p)) = p := by
  simp [Function.uncurry]

theorem gInverse_gForward (rom : Memory) (k : Key) (w : Word) (c : Cursor) :
    gInverse rom k (gForward rom k w c).1 (gForward rom k w c).2 = (w, c) :=
  Prod.ext (by simp [gInverse_word, gForward_word]) (by simp)

theorem gForward_gInverse (rom : Memory) (k : Key) (w : Word) (c : Cursor) :
    gForward rom k (gInverse rom k w c).1 (gInverse rom k w c).2 = (w, c) :=
  Prod.ext (by simp [gInverse_word, gForward_word]) (by simp)

/-- Settles O21: each lookup is undone by the inverse lookup with the same key byte, since the cursor walks back over the
values it came by. -/
theorem gInverseLaw : Obligations.GInverseLaw :=
  fun rom k w c => ⟨gInverse_gForward rom k w c, gForward_gInverse rom k w c⟩

/-- Settles O23: the cursor G returns is the same for every word, so the inverse at that cursor gives each word back, and
an injective map of the words into themselves is onto. -/
theorem gIsABijection : Obligations.GIsABijection := by
  intro rom k c
  have hleft : Function.LeftInverse
      (fun w => (gInverse rom k w (cursorNext (cursorNext (cursorNext (cursorNext c))))).1)
      (fun w => (gForward rom k w c).1) :=
    fun w => congrArg Prod.fst (gInverse_gForward rom k w c)
  exact hleft.injective.bijective_of_finite

theorem gForward_cursor_val (rom : Memory) (k : Key) (w : Word) (c : Cursor) :
    (gForward rom k w c).2.val = (c.val + 4) % 10 := by
  simp only [gForward_cursor, cursorNext]
  omega

theorem gInverse_cursor_val (rom : Memory) (k : Key) (w : Word) (c : Cursor) :
    (gInverse rom k w c).2.val = (c.val + 6) % 10 := by
  simp only [gInverse_cursor, cursorPrev]
  omega

/-- Settles O22: back by 4 modulo 10 is forward by 6. -/
theorem gCursorLaw : Obligations.GCursorLaw := by
  intro rom k w c
  refine ⟨gForward_cursor_val rom k w c, ?_⟩
  rw [gInverse_cursor_val]
  omega

/-! ### The key bytes the cursor walks over (R120, R121) -/

/-- The key byte at a cursor that has walked to `n`. -/
theorem get_eq_keyAt (k : Key) {c : Cursor} {n : Nat} (h : c.val = n % 10) : k.get c = keyAt k n := by
  obtain rfl : c = ⟨n % 10, Nat.mod_lt _ (by decide)⟩ := Fin.ext h
  rfl

theorem gForward_word_keyAt (rom : Memory) (k : Key) (w : Word) (c : Cursor) :
    (gForward rom k w c).1 = Function.uncurry byteConcat
      (gLookup rom (keyAt k (c.val + 3)) (gLookup rom (keyAt k (c.val + 2)) (gLookup rom (keyAt k (c.val + 1))
        (gLookup rom (keyAt k c.val) (hiByte w, loByte w))))) := by
  have h0 : k.get c = keyAt k c.val := get_eq_keyAt k (by omega)
  have h1 : k.get (cursorNext c) = keyAt k (c.val + 1) := get_eq_keyAt k rfl
  have h2 : k.get (cursorNext (cursorNext c)) = keyAt k (c.val + 2) :=
    get_eq_keyAt k (by simp only [cursorNext]; omega)
  have h3 : k.get (cursorNext (cursorNext (cursorNext c))) = keyAt k (c.val + 3) :=
    get_eq_keyAt k (by simp only [cursorNext]; omega)
  rw [gForward_word, h0, h1, h2, h3]

theorem gInverse_word_keyAt (rom : Memory) (k : Key) (w : Word) (c : Cursor) :
    (gInverse rom k w c).1 = Function.uncurry byteConcat
      (gLookupInv rom (keyAt k (c.val + 6)) (gLookupInv rom (keyAt k (c.val + 7))
        (gLookupInv rom (keyAt k (c.val + 8)) (gLookupInv rom (keyAt k (c.val + 9)) (hiByte w, loByte w))))) := by
  have h1 : k.get (cursorPrev c) = keyAt k (c.val + 9) := get_eq_keyAt k rfl
  have h2 : k.get (cursorPrev (cursorPrev c)) = keyAt k (c.val + 8) :=
    get_eq_keyAt k (by simp only [cursorPrev]; omega)
  have h3 : k.get (cursorPrev (cursorPrev (cursorPrev c))) = keyAt k (c.val + 7) :=
    get_eq_keyAt k (by simp only [cursorPrev]; omega)
  have h4 : k.get (cursorPrev (cursorPrev (cursorPrev (cursorPrev c)))) = keyAt k (c.val + 6) :=
    get_eq_keyAt k (by simp only [cursorPrev]; omega)
  rw [gInverse_word, h1, h2, h3, h4]

/-! ### The instructions (R75, R120, R121) -/

theorem decode_gOp (gd : BitVec 1) (w : Word) {c : BitVec 4} (h : c.toNat < 10) :
    decode (.unitOp (.gOp gd w c)) = .ok (if gd = 0#1 then .g w c else .gInv w c) := by
  simp [decode, decodeUnitOp, cursorLegal, h]

/-- An operation of the G unit with a legal cursor records its result. -/
theorem withGOperands_returnWord {s : State} {c : BitVec 4} (h : c.toNat < 10) (f : Key → Cursor → Word × Cursor) :
    withGOperands s c (fun k c => s.returnWord (f k c)) =
      .next { s with unitOut := some (.word (f s.key ⟨c.toNat, h⟩).1 (cursorBits (f s.key ⟨c.toNat, h⟩).2)) } :=
  withGOperands_next.mpr ⟨h, rfl⟩

/-- Settles O19: the four lookups of G with the key bytes from the cursor on. -/
theorem gComputesFourLookups : Obligations.GComputesFourLookups := by
  intro s w c hc
  refine ⟨decode_gOp 0#1 w hc, ?_⟩
  rw [exec_g, withGOperands_returnWord hc, cursorBits, gForward_cursor_val, gForward_word_keyAt]
  rfl

/-- Settles O20: the four inverse lookups with the key bytes back from the cursor. -/
theorem gInvComputesFourLookups : Obligations.GInvComputesFourLookups := by
  intro s w c hc
  refine ⟨decode_gOp 1#1 w hc, ?_⟩
  rw [exec_gInv, withGOperands_returnWord hc, cursorBits, gInverse_cursor_val, gInverse_word_keyAt]
  rfl

end Sys2Proof.Machine
end

section
/-! SUPPORT. The statements about the round engine (spec/42_round_engine.md): the four round rules and how they undo
each other, the ROUND step, and that an operation runs to its end. -/

namespace Sys2Proof.Machine

/-! ### What a round rule writes (R140 to R143) -/

/-- A round rule with the function `f`, in a state ready for a round, writes W and CUR. -/
theorem exec_roundRule_ready {i : Instr} {f : Memory → Key → BitVec 6 → Block → Cursor → Block × Cursor}
    (hi : ∀ s, exec i s = withRoundOperands s fun k r b c => s.writeRound (f s.rom k r b c)) {s : State} {c : Cursor}
    (h : s.RoundReady c) : exec i s = .next (s.writeRound (f s.rom s.key s.rc s.w c)) :=
  (hi s).trans (withRoundOperands_ready h _)

theorem zext16_eq (r : BitVec 6) : zext16 r = BitVec.ofNat 16 r.toNat :=
  (BitVec.ofNat_toNat 16 r).symm

theorem cursorBits_gForward (rom : Memory) (k : Key) (w : Word) (c : Cursor) :
    cursorBits (gForward rom k w c).2 = BitVec.ofNat 4 ((c.val + 4) % 10) := by
  rw [cursorBits, gForward_cursor_val]

theorem cursorBits_gInverse (rom : Memory) (k : Key) (w : Word) (c : Cursor) :
    cursorBits (gInverse rom k w c).2 = BitVec.ofNat 4 ((c.val + 6) % 10) := by
  rw [cursorBits, gInverse_cursor_val]

/-- Settles O24: G's cursor is 4 further on, and the words are the rule's. -/
theorem ruleAResult : Obligations.RuleAResult := by
  intro s c h t
  refine ⟨decode_roundOp 0b00#2, ?_⟩
  rw [exec_roundRule_ready exec_ruleA h, State.writeRound, ruleA, cursorBits_gForward, zext16_eq]

/-- Settles O25: G's cursor is 4 further on, and the words are the rule's. -/
theorem ruleBResult : Obligations.RuleBResult := by
  intro s c h t
  refine ⟨decode_roundOp 0b01#2, ?_⟩
  rw [exec_roundRule_ready exec_ruleB h, State.writeRound, ruleB, cursorBits_gForward, zext16_eq]

/-- Settles O26: the cursor of G's inverse is 4 back, which is 6 further on, and the words are the rule's. -/
theorem ruleAInvResult : Obligations.RuleAInvResult := by
  intro s c h x
  refine ⟨decode_roundOp 0b10#2, ?_⟩
  rw [exec_roundRule_ready exec_ruleAInv h, State.writeRound, ruleAInv, cursorBits_gInverse, zext16_eq]

/-- Settles O27: the cursor of G's inverse is 4 back, which is 6 further on, and the words are the rule's. -/
theorem ruleBInvResult : Obligations.RuleBInvResult := by
  intro s c h x
  refine ⟨decode_roundOp 0b11#2, ?_⟩
  rw [exec_roundRule_ready exec_ruleBInv h, State.writeRound, ruleBInv, cursorBits_gInverse, zext16_eq]

/-! ### The round inverse law (R148) -/

/-- What Rule A, Rule B and their inverses add to a word, their counterparts add again. -/
theorem xor_round_cancel (a b r : Word) : a ^^^ (a ^^^ b ^^^ r) ^^^ r = b := by
  simp [BitVec.xor_assoc]

theorem ruleAInv_ruleA (rom : Memory) (k : Key) (r : BitVec 6) (b : Block) (c : Cursor) :
    ruleAInv rom k r (ruleA rom k r b c).1 (ruleA rom k r b c).2 = (b, c) := by
  simp only [ruleAInv, ruleA, gInverse_gForward, BitVec.xor_comm _ (gForward rom k b.w1 c).1, xor_round_cancel]

theorem ruleA_ruleAInv (rom : Memory) (k : Key) (r : BitVec 6) (b : Block) (c : Cursor) :
    ruleA rom k r (ruleAInv rom k r b c).1 (ruleAInv rom k r b c).2 = (b, c) := by
  simp only [ruleA, ruleAInv, gForward_gInverse, BitVec.xor_comm b.w1 b.w2, xor_round_cancel]

theorem ruleBInv_ruleB (rom : Memory) (k : Key) (r : BitVec 6) (b : Block) (c : Cursor) :
    ruleBInv rom k r (ruleB rom k r b c).1 (ruleB rom k r b c).2 = (b, c) := by
  simp only [ruleBInv, ruleB, gInverse_gForward, xor_round_cancel]

theorem ruleB_ruleBInv (rom : Memory) (k : Key) (r : BitVec 6) (b : Block) (c : Cursor) :
    ruleB rom k r (ruleBInv rom k r b c).1 (ruleBInv rom k r b c).2 = (b, c) := by
  simp only [ruleB, ruleBInv, gForward_gInverse, xor_round_cancel]

/-- Writing a round's result leaves the state ready for another rule at the same round, at the cursor written. -/
theorem State.RoundReady.writeRound {s : State} {c : Cursor} (h : s.RoundReady c) (x : Block × Cursor) :
    (s.writeRound x).RoundReady x.2 :=
  ⟨h.busy, h.roundLow, h.roundHigh, cursorBits_toNat x.2⟩

/-- Writing back the words and the cursor a state holds changes nothing. -/
theorem State.RoundReady.writeRound_self {s : State} {c : Cursor} (h : s.RoundReady c) :
    s.writeRound (s.w, c) = s := by
  have hcur : cursorBits c = s.cur := BitVec.eq_of_toNat_eq ((cursorBits_toNat c).trans h.cursor.symm)
  rw [State.writeRound, hcur]

/-- A round rule whose function `g` undoes the function `f` of another undoes the instruction, since neither writes the
round index, the key or the ROM. -/
theorem exec_undoes {i j : Instr} {f g : Memory → Key → BitVec 6 → Block → Cursor → Block × Cursor}
    (hi : ∀ s, exec i s = withRoundOperands s fun k r b c => s.writeRound (f s.rom k r b c))
    (hj : ∀ s, exec j s = withRoundOperands s fun k r b c => s.writeRound (g s.rom k r b c))
    (hgf : ∀ rom k r b c, g rom k r (f rom k r b c).1 (f rom k r b c).2 = (b, c)) {s t : State}
    (h : exec i s = .next t) : exec j t = .next s := by
  obtain ⟨c, hc, rfl⟩ := ready_of_withRoundOperands ((hi s).symm.trans h)
  rw [exec_roundRule_ready hj (hc.writeRound _)]
  exact congrArg Host.Outcome.next ((congrArg s.writeRound (hgf _ _ _ _ _)).trans hc.writeRound_self)

/-- Settles O28: the functions of each pair of rules undo each other, so the instructions do. -/
theorem roundInverseLaw : Obligations.RoundInverseLaw := fun _ _ =>
  ⟨exec_undoes exec_ruleA exec_ruleAInv ruleAInv_ruleA, exec_undoes exec_ruleAInv exec_ruleA ruleA_ruleAInv,
    exec_undoes exec_ruleB exec_ruleBInv ruleBInv_ruleB, exec_undoes exec_ruleBInv exec_ruleB ruleB_ruleBInv⟩

/-! ### The composition of the rounds (R146, R147) -/

theorem decRound_encRound (rom : Memory) (k : Key) (r : Nat) (x : Block × Cursor) :
    decRound rom k r (encRound rom k r x) = x := by
  unfold decRound encRound
  split
  · exact ruleAInv_ruleA _ _ _ _ _
  · exact ruleBInv_ruleB _ _ _ _ _

theorem encRound_decRound (rom : Memory) (k : Key) (r : Nat) (x : Block × Cursor) :
    encRound rom k r (decRound rom k r x) = x := by
  unfold decRound encRound
  split
  · exact ruleA_ruleAInv _ _ _ _ _
  · exact ruleB_ruleBInv _ _ _ _ _

/-- Encryption ends at the cursor decryption starts with (R28). -/
theorem encAfter_cursor_end (rom : Memory) (k : Key) (b : Block) :
    (encAfter rom k b 32).2 = Config.cursorDecStart :=
  Fin.ext (encAfter_cursor_val rom k b 32)

/-- Decryption ends at the cursor encryption starts with (R28). -/
theorem decAfter_cursor_end (rom : Memory) (k : Key) (b : Block) :
    (decAfter rom k b 32).2 = Config.cursorEncStart :=
  Fin.ext (decAfter_cursor_val rom k b 32 le_rfl)

/-- Each decryption round takes off the last encryption round that is left. -/
theorem decAfter_encAfter (rom : Memory) (k : Key) (b : Block) {n m : Nat} (h : n + m = 32) :
    decAfter rom k (encAfter rom k b 32).1 n = encAfter rom k b m := by
  induction n generalizing m with
  | zero =>
    obtain rfl : m = 32 := by omega
    exact Prod.ext rfl (encAfter_cursor_end rom k b).symm
  | succ n ih =>
    have hround : 32 - n = m + 1 := by omega
    rw [decAfter, ih (m := m + 1) (by omega), hround, encAfter, decRound_encRound]

/-- Each encryption round takes off the last decryption round that is left. -/
theorem encAfter_decAfter (rom : Memory) (k : Key) (b : Block) {n m : Nat} (h : n + m = 32) :
    encAfter rom k (decAfter rom k b 32).1 n = decAfter rom k b m := by
  induction n generalizing m with
  | zero =>
    obtain rfl : m = 32 := by omega
    exact Prod.ext rfl (decAfter_cursor_end rom k b).symm
  | succ n ih =>
    have hround : n + 1 = 32 - m := by omega
    rw [encAfter, ih (m := m + 1) (by omega), hround, decAfter, encRound_decRound]

/-- Settles O29: round by round, the last first, each direction takes off what the other did. -/
theorem roundsComposeToIdentity : Obligations.RoundsComposeToIdentity := fun rom k b =>
  ⟨fun r c => ⟨ruleAInv_ruleA rom k r b c, ruleBInv_ruleB rom k r b c⟩, encAfter_cursor_end rom k b,
    decAfter_encAfter rom k b (n := 32) (m := 0) rfl, encAfter_decAfter rom k b (n := 32) (m := 0) rfl⟩

/-! ### The ROUND step (R150) -/

/-- While BUSY = 1 the core's step runs the selected rule, and then the sequencer's writes. -/
theorem step_busy {s t : State} {i : Instr} (hm : CoreMoves s t) (hb : s.busy = true)
    (hi : decode (.roundOp (roundSelect s.dir s.rc)) = .ok i) :
    step s = afterExec (.roundOp (roundSelect s.dir s.rc)) (exec i t) := by
  obtain ⟨es, ht, -⟩ := coreMoves_eq hm
  have hsel : roundSelect t.dir t.rc = roundSelect s.dir s.rc := by rw [ht]
  rw [step, stepTurn, turn_of_coreMoves hm, coreTurn_busy ((coreMoves_busy hm).trans hb), hsel]
  exact runEncoded_ok hi

theorem eq_lastRound {dir : Direction} {r : BitVec 6} :
    r = lastRound dir ↔ (dir = .encrypt ∧ r = 32#6) ∨ (dir = .decrypt ∧ r = 1#6) := by
  cases dir <;> simp [lastRound]

/-- R150's end of a ROUND step, with its last rounds and its moves of RC written out. -/
theorem finishRound_eq (u : State) :
    u.finishRound =
      if (u.dir = .encrypt ∧ u.rc = 32#6) ∨ (u.dir = .decrypt ∧ u.rc = 1#6) then
        { u with busy := false, outbox := u.outbox ++ [.response ⟨0x00#8, (pack u.w).toList⟩] }
      else if u.dir = .encrypt then { u with rc := u.rc + 1#6 }
      else { u with rc := u.rc - 1#6 } := by
  obtain ⟨hlast, hf⟩ | ⟨hlast, hf⟩ := finishRound_cases u
  · rw [hf, if_pos (eq_lastRound.mp hlast)]
    rfl
  · rw [hf, if_neg (mt eq_lastRound.mpr hlast)]
    cases hd : u.dir with
    | encrypt => rw [if_pos rfl, nextRound]
    | decrypt => rw [if_neg (by decide), nextRound]

/-- Settles O36: a fault passes through the sequencer's writes, and a next state ends as R150 says. -/
theorem roundStepRunsSelectedRule : Obligations.RoundStepRunsSelectedRule := by
  intro s t i hm hb hi
  rw [step_busy hm hb hi]
  constructor
  · intro f hf
    rw [hf]
    rfl
  · intro u hu
    rw [hu, ← finishRound_eq]
    rfl

/-! ### Every step completes (R149, R207) -/

theorem cursorBefore_lt (dir : Direction) (r : Nat) : cursorBefore dir r < 10 := by
  cases dir <;> exact Nat.mod_lt _ (by decide)

/-- Under the invariant an operation in progress is ready for its round. -/
theorem State.Inv.roundReady {s : State} (h : s.Inv) (hb : s.busy = true) :
    s.RoundReady ⟨cursorBefore s.dir s.rc.toNat, cursorBefore_lt _ _⟩ :=
  ⟨hb, h.roundLow hb, h.roundHigh hb, h.cursorOfRound hb⟩

/-- The core's turn completes: a ROUND step, an ACCEPT step or an idle turn. -/
theorem State.Inv.coreStep_completes {s t : State} (h : s.Inv) (hm : CoreMoves s t) : ∃ u, step s = .next u := by
  cases hb : t.busy with
  | true => exact ⟨_, step_round hm ((h.coreMoves hm).roundReady hb)⟩
  | false =>
    cases hp : t.pending with
    | some c => exact ⟨_, step_accept hm hb hp ((h.coreMoves hm).pendingAgrees c hp)⟩
    | none =>
      exact ⟨t, idleCoreWaits s t hm ((coreMoves_busy hm).symm.trans hb) ((coreMoves_pending hm).symm.trans hp)⟩

/-- Settles O46, over who moves: the core's turn and the host's operations complete, and no host issues a unit
operation. -/
theorem stepNeverStops : Obligations.StepNeverStops := by
  intro s h
  obtain ⟨t, hm, -⟩ | ⟨c, es, -, -, ht⟩ | ⟨p, es, -, ht⟩ | ⟨u, es, hs, -⟩ := turn_cases s
  · exact h.coreStep_completes hm
  · exact ⟨_, by rw [step, stepTurn, ht]⟩
  · rw [step, stepTurn, ht]
    cases p with
    | readSr => exact ⟨_, rfl⟩
    | reset => exact ⟨_, rfl⟩
  · exact absurd (h.head hs) nofun

/-! ### An operation runs to its end (R151) -/

/-- An operation has all but `n` of its 32 rounds left exactly in the round it runs after `n` rounds. -/
theorem roundsLeft_eq_iff {s : State} {n : Nat} (hb : s.busy = true) (hn : n < 32) :
    s.roundsLeft = 32 - n ↔ s.rc.toNat = roundNumber s.dir n := by
  unfold State.roundsLeft
  rw [if_pos hb]
  cases hd : s.dir with
  | encrypt => simp only [roundNumber]; omega
  | decrypt => simp only [roundNumber]

theorem State.Inv.roundsLeft_range {s : State} (h : s.Inv) (hb : s.busy = true) :
    1 ≤ s.roundsLeft ∧ s.roundsLeft ≤ 32 := by
  have hl := h.roundLow hb
  have hh := h.roundHigh hb
  unfold State.roundsLeft
  rw [if_pos hb]
  cases s.dir with
  | encrypt => simp only; omega
  | decrypt => exact ⟨hl, hh⟩

/-- An operation is in progress that the host leaves alone: it has `m` rounds left, and `out` is what was delivered
before its response. -/
structure State.LeftAlone (s : State) (out : List PortOut) (m : Nat) : Prop where
  inv        : s.Inv
  busy       : s.busy = true
  noEvent    : s.sched = []
  delivered  : s.outbox = out
  roundsLeft : s.roundsLeft = m

/-- The step of an operation left alone is a ROUND step, which writes W and CUR and ends the round. -/
theorem State.LeftAlone.step_eq {s : State} {out : List PortOut} {m : Nat} (h : s.LeftAlone out m) :
    ∃ x, step s = .next (s.writeRound x).finishRound :=
  ⟨_, step_round (.noEvent h.noEvent) (h.inv.roundReady h.busy)⟩

/-- A round that is not the last leaves the operation with one round less. -/
theorem State.LeftAlone.roundStep {s : State} {out : List PortOut} {m : Nat} (h : s.LeftAlone out (m + 1))
    (hm : 0 < m) : ∃ t, step s = .next t ∧ t.LeftAlone out m := by
  obtain ⟨x, hx⟩ := h.step_eq
  have hle : m + 1 ≤ 32 := h.roundsLeft ▸ (h.inv.roundsLeft_range h.busy).2
  have hrc : s.rc.toNat = roundNumber s.dir (31 - m) :=
    (roundsLeft_eq_iff h.busy (by omega)).mp (h.roundsLeft.trans (by omega))
  obtain ⟨hlast, -⟩ | ⟨-, hf⟩ := finishRound_cases (s.writeRound x)
  · have := (eq_lastRound_iff (by omega) hrc).mp hlast
    omega
  · rw [hf] at hx
    have hleft := (roundsLeft_eq_iff (s := { s.writeRound x with rc := nextRound s.dir s.rc }) h.busy
      (by omega)).mpr (nextRound_toNat (by omega) hrc)
    exact ⟨_, hx, stepKeepsInvariant s _ h.inv hx, h.busy, h.noEvent, h.delivered, hleft.trans (by omega)⟩

/-- The last round ends the operation with a response of eight bytes (R178). -/
theorem State.LeftAlone.lastStep {s : State} {out : List PortOut} (h : s.LeftAlone out 1) :
    ∃ t o, step s = .next t ∧ t.busy = false ∧ o.length = 8 ∧ t.outbox = out ++ [.response ⟨0x00#8, o⟩] := by
  obtain ⟨x, hx⟩ := h.step_eq
  have hrc : s.rc.toNat = roundNumber s.dir 31 := (roundsLeft_eq_iff h.busy (by omega)).mp h.roundsLeft
  obtain ⟨-, hf⟩ | ⟨hlast, -⟩ := finishRound_cases (s.writeRound x)
  · rw [hf] at hx
    exact ⟨_, (pack x.1).toList, hx, rfl, (pack x.1).length_toList, by simp [h.delivered, Status.code]⟩
  · exact absurd ((eq_lastRound_iff (by omega) hrc).mpr rfl) hlast

/-- With more than `n` rounds left, `n` steps leave the operation in progress. -/
theorem State.LeftAlone.run {s : State} {out : List PortOut} {m n : Nat} (h : s.LeftAlone out (m + 1 + n)) :
    ∃ t, runSteps n s = .next t ∧ t.LeftAlone out (m + 1) := by
  induction n generalizing s with
  | zero => exact ⟨s, rfl, h⟩
  | succ n ih =>
    obtain ⟨u, hu, hleft⟩ := h.roundStep (m := m + 1 + n) (by omega)
    obtain ⟨t, ht, hdone⟩ := ih hleft
    exact ⟨t, (runSteps_of_step n hu).trans ht, hdone⟩

theorem startOperation_roundsLeft (s : State) (dir : Direction) (d : BlockBytes) :
    (s.startOperation dir d).roundsLeft = 32 := by
  cases dir <;> rfl

/-- Settles O51: each step but the last takes one round off and delivers nothing, by induction on the number of steps,
and the last one responds. -/
theorem operationTerminates : Obligations.OperationTerminates := by
  refine ⟨fun s hinv hb hs => ?_, startOperation_roundsLeft⟩
  have hpos := (hinv.roundsLeft_range hb).1
  constructor
  · intro n hn
    have h : s.LeftAlone s.outbox (s.roundsLeft - n - 1 + 1 + n) := ⟨hinv, hb, hs, rfl, by omega⟩
    obtain ⟨t, ht, hleft⟩ := h.run
    exact ⟨t, ht, hleft.busy, hleft.delivered⟩
  · have h : s.LeftAlone s.outbox (0 + 1 + (s.roundsLeft - 1)) := ⟨hinv, hb, hs, rfl, by omega⟩
    obtain ⟨u, hu, hlast⟩ := h.run
    obtain ⟨t, o, ht, hdone⟩ := hlast.lastStep
    refine ⟨t, o, ?_, hdone⟩
    rw [← Nat.sub_add_cancel hpos, runSteps_add 1 hu]
    exact runSteps_of_step 0 ht

end Sys2Proof.Machine
end

section
/-! SUPPORT. The statements about commands in context (spec/43_context.md): the ACCEPT step of each command, what the
host does and when, the round trip, and Exec against the sequencer under any host. -/

namespace Sys2Proof.Machine

/-! ### Command errors and reserved OPs (R179, R203) -/

/-- A command error adds its response and writes nothing else (R203). -/
theorem raiseError_eq (s : State) (e : Status) :
    s.raiseError e = { s with outbox := s.outbox ++ [.response ⟨e.code, []⟩] } := rfl

theorem accept_of_reserved (s : State) {op : Byte} (d : List Byte) (h1 : op ≠ 0x01#8) (h2 : op ≠ 0x02#8)
    (h3 : op ≠ 0x03#8) : s.accept op d = s.raiseError .illegalCommand := by
  rw [State.accept, if_neg h1, if_neg h2, if_neg h3]

/-- Settles O4: the decoder looks at OP alone, and the ACCEPT of any other OP is the error. -/
theorem reservedOpRaisesIllegalCommand : Obligations.ReservedOpRaisesIllegalCommand := by
  intro c s hc h1 h2 h3
  refine ⟨_, decode_hostCmd hc, ?_⟩
  rw [exec_decodeOp_eq, accept_of_reserved s c.data h1 h2 h3]
  rfl

/-- Settles O5: each row's meaning is the one shared error. -/
theorem reservedRowsComplete : Obligations.ReservedRowsComplete := by
  intro s d b2 b3 b4 b5 b6 b7 i hi
  simp only [List.mem_cons, List.not_mem_nil, or_false] at hi
  obtain rfl | rfl | rfl | rfl | rfl | rfl | rfl := hi
  all_goals exact congrArg Host.Outcome.next (raiseError_eq s .illegalCommand)

/-! ### SETKEY (R172) -/

theorem loadKey_toList (s : State) (k : Key) :
    s.loadKey k.toList = ({ s with key := k, kv := true } : State).respond .ok [] :=
  dif_pos k.length_toList

theorem loadKey_of_length_ne (s : State) {d : List Byte} (h : d.length ≠ 10) :
    s.loadKey d = s.raiseError .invalidKeySize :=
  dif_neg h

/-- Settles O8: the word's LEN is 10 and its OP is SETKEY's; ten bytes are the key, any other number is the error. -/
theorem setkeyLoadsKey : Obligations.SetkeyLoadsKey := by
  intro s k
  have hlen : (⟨0x0A01#16, k.toList⟩ : HostCmd).agrees = true := by simp [agrees_iff]
  have hop : (⟨0x0A01#16, k.toList⟩ : HostCmd).op = 0x01#8 := by simp [HostCmd.op]
  refine ⟨(decode_hostCmd hlen).trans (by rw [hop]; rfl), ?_, fun d hd => ?_⟩
  · exact congrArg Host.Outcome.next (loadKey_toList s k)
  · exact congrArg Host.Outcome.next (loadKey_of_length_ne s hd)

/-! ### ENCRYPT and DECRYPT: the checks and the start (R174 to R176) -/

theorem acceptOperation_of_noKey {s : State} (hk : s.kv = false) (dir : Direction) (d : List Byte) :
    s.acceptOperation dir d = s.raiseError .noKey :=
  if_pos hk

theorem acceptOperation_of_length_ne {s : State} (hk : s.kv = true) (dir : Direction) {d : List Byte}
    (hd : d.length ≠ 8) : s.acceptOperation dir d = s.raiseError .invalidBlockSize := by
  rw [State.acceptOperation, if_neg (by simp [hk]), dif_neg hd]

theorem acceptOperation_of_length {s : State} (hk : s.kv = true) (dir : Direction) {d : List Byte}
    (hd : d.length = 8) : s.acceptOperation dir d = s.startOperation dir ⟨d.toArray, hd⟩ := by
  rw [State.acceptOperation, if_neg (by simp [hk]), dif_pos hd]

/-- Settles O10: eight bytes under a key pass the checks, and the start writes what R175 lists. -/
theorem acceptStartsTheOperation : Obligations.AcceptStartsTheOperation := fun _ d hk =>
  ⟨congrArg Host.Outcome.next (acceptOperation_of_length hk .encrypt d.length_toList),
    congrArg Host.Outcome.next (acceptOperation_of_length hk .decrypt d.length_toList)⟩

/-- ENCRYPT and DECRYPT are one ACCEPT, each in its direction (R173, R177). -/
theorem exec_block {i : Instr} {d : List Byte} (hi : i = .encrypt d ∨ i = .decrypt d) :
    ∃ dir, ∀ s, exec i s = .next (s.acceptOperation dir d) := by
  obtain rfl | rfl := hi
  · exact ⟨.encrypt, fun _ => rfl⟩
  · exact ⟨.decrypt, fun _ => rfl⟩

/-- Settles O11: the three outcomes of the ACCEPT checks, in their order. -/
theorem blockErrorsExactly : Obligations.BlockErrorsExactly := by
  intro s d i hi
  obtain ⟨dir, hx⟩ := exec_block hi
  rw [hx]
  refine ⟨fun hk => ?_, fun hk hd => ?_, fun hk hd => ⟨_, rfl, ?_⟩⟩
  · exact congrArg Host.Outcome.next (acceptOperation_of_noKey hk dir d)
  · exact congrArg Host.Outcome.next (acceptOperation_of_length_ne hk dir hd)
  · rw [acceptOperation_of_length hk dir hd]
    exact ⟨rfl, rfl⟩

/-! ### READ_SR (R180) -/

theorem srView_getLsbD_low (s : State) : s.srView.getLsbD 0 = s.busy ∧ s.srView.getLsbD 1 = s.kv := by
  unfold State.srView
  cases s.busy <;> cases s.kv <;> decide

/-- SR is a two-bit value extended by zeros (R29). -/
theorem srView_getLsbD_high (s : State) {n : Nat} (hn : 2 ≤ n) : s.srView.getLsbD n = false := by
  rw [State.srView, BitVec.getLsbD_setWidth, BitVec.getLsbD_of_ge _ n hn, Bool.and_false]

/-- Settles O14: READ_SR delivers the status view, bit by bit KV and BUSY. -/
theorem readSrShowsBusyAndKv : Obligations.ReadSrShowsBusyAndKv := fun s =>
  ⟨s.srView, rfl, (srView_getLsbD_low s).1, (srView_getLsbD_low s).2, fun _ => srView_getLsbD_high s⟩

/-! ### What a step runs, and what it leaves on the schedule (R170, R171) -/

/-- A step whose turn is an encoded form runs what the form decodes to. -/
theorem step_of_turn_run {s t : State} {e : Encoded} {i : Instr} (ht : s.turn = .run e t) (hd : decode e = .ok i) :
    step s = afterExec e (exec i t) := by
  rw [step, stepTurn, ht]
  exact runEncoded_ok hd

/-- Settles O35: in each case the turn is the form named, and only a ROUND step adds anything after the instruction. -/
theorem stepRunsDecodedInstruction : Obligations.StepRunsDecodedInstruction := by
  intro s i
  refine ⟨fun p es hs hd => ?_, fun u es hs hd => ?_, fun t c hm hb hp hd => ?_⟩
  · exact step_of_turn_run (by simp [State.turn, hs]) hd
  · exact step_of_turn_run (by simp [State.turn, hs]) hd
  · refine step_of_turn_run ?_ hd
    rw [turn_of_coreMoves hm, coreTurn_accept ((coreMoves_busy hm).trans hb) ((coreMoves_pending hm).trans hp)]

/-- A submission that finds nothing pending becomes the pending command (R170). -/
theorem step_submit {s : State} {c : HostCmd} {es : List Event} (hs : s.sched = .submit c :: es)
    (hp : s.pending = none) : step s = .next { s with pending := some c, sched := es } := by
  simp [step, stepTurn, State.turn, hs, hp]

/-- READ_SR as a step (R180). -/
theorem step_readSr {s : State} {es : List Event} (hs : s.sched = .port .readSr :: es) :
    step s = .next (({ s with sched := es } : State).deliver (.sr s.srView)) :=
  (stepRunsDecodedInstruction s .readSr).1 .readSr es hs rfl

/-- What the sequencer adds after an instruction is at most the end of a ROUND step (R150). -/
theorem afterExec_next {e : Encoded} {o : Host.Outcome State Fault Refusal} {u : State}
    (h : afterExec e o = .next u) : ∃ v, o = .next v ∧ (u = v ∨ u = v.finishRound) := by
  unfold afterExec at h
  split at h
  · cases h
    exact ⟨_, rfl, .inr rfl⟩
  · exact ⟨u, h, .inl rfl⟩

/-- What an encoded form runs leaves the schedule alone. -/
theorem runEncoded_sched {e : Encoded} {t u : State} (h : runEncoded e t = .next u) : u.sched = t.sched := by
  cases hd : decode e with
  | error why => simp [runEncoded, hd] at h
  | ok i =>
    rw [runEncoded_ok hd] at h
    obtain ⟨v, hv, rfl | rfl⟩ := afterExec_next h
    · exact (exec_rom_sched hv).2
    · exact (finishRound_sched v).trans (exec_rom_sched hv).2

/-- When the core moves, its step takes nothing more off the schedule than its own event. -/
theorem step_sched_of_coreMoves {s t u : State} (hm : CoreMoves s t) (h : step s = .next u) : u.sched = t.sched := by
  rw [step, stepTurn, turn_of_coreMoves hm] at h
  cases hb : t.busy with
  | true =>
    rw [coreTurn_busy hb] at h
    exact runEncoded_sched h
  | false =>
    cases hp : t.pending with
    | none =>
      rw [coreTurn_idle hb hp] at h
      cases h
      rfl
    | some c =>
      rw [coreTurn_accept hb hp] at h
      exact runEncoded_sched (t := { t with pending := none }) h

/-- Settles O37: a submission is taken where nothing is pending; else the core moves from the state itself. -/
theorem submitMakesPendingOrWaits : Obligations.SubmitMakesPendingOrWaits := fun _ c es hs =>
  ⟨step_submit hs, fun c' _ hp h => (step_sched_of_coreMoves (.waiting c c' es hs hp) h).trans hs⟩

/-- Settles O39: under the invariant the core's step is a ROUND step, which writes none of the three. -/
theorem commandHoldWhileBusy : Obligations.CommandHoldWhileBusy := by
  intro s t hinv hm hb
  have hready := (hinv.coreMoves hm).roundReady ((coreMoves_busy hm).trans hb)
  exact ⟨_, step_round hm hready, by simp [coreMoves_pending hm], by simp [coreMoves_key hm],
    by simp [coreMoves_kv hm]⟩

/-! ### The round trip (R182) -/

/-- Settles O50: packed and unpacked bytes are the words, and the rounds of one direction undo those of the other. -/
theorem roundTrip : Obligations.RoundTrip := by
  intro rom k p
  obtain ⟨-, -, hdec, henc⟩ := roundsComposeToIdentity rom k (unpack p)
  constructor
  · rw [decBlock, encBlock, unpack_pack, hdec]
    exact pack_unpack p
  · rw [encBlock, decBlock, unpack_pack, henc]
    exact pack_unpack p

/-! ### Exec in an idle core left alone (R184, R237) -/

theorem stepsOf_pos (ctx : Context) (c : HostCmd) : 1 ≤ stepsOf ctx c := by
  unfold stepsOf
  split
  · decide
  · decide

/-- Settles O52: the ACCEPT step begins Exec's answer, and the steps R237 counts after it bring it. -/
theorem stepMachineRefinesExec : Obligations.StepMachineRefinesExec := by
  intro s c hb hs hp hc
  obtain ⟨u, hu, hans, hurom, hupend, husched⟩ := step_accept_answering (.noEvent hs) hb hp hc
  obtain ⟨t, ht, ⟨htb, htctx, htout⟩, htrom, htpend, -⟩ := hans.run (cs := []) ⟨hupend, husched.trans hs⟩
  refine ⟨t, ?_, htb, htpend, htrom.trans hurom, htctx, htout⟩
  rw [← Nat.sub_add_cancel (stepsOf_pos s.context c)]
  exact (runSteps_of_step _ hu).trans ht

/-! ### Exec under any host but one that resets (R184, R180, R181) -/

/-- Events a host causes without a reset. -/
def NoReset (es : List Event) : Prop := ∀ e ∈ es, e.hostDriven = true ∧ e ≠ .port .reset

/-- The state after the host alone has acted: `p` is pending, `es` is still to come and the SR values `vs` have been
delivered. -/
def State.afterHost (s : State) (p : Option HostCmd) (es : List Event) (vs : List Byte) : State :=
  { s with pending := p, sched := es, outbox := s.outbox ++ vs.map .sr }

/-- Where the host has done nothing, the core moves from a state that differs in its schedule alone. -/
theorem afterHost_nil (s : State) (es : List Event) : s.afterHost s.pending es [] = { s with sched := es } := by
  simp [State.afterHost]

/-- Without a reset the host reaches the core's turn, by induction on the schedule: it reads SR and submits, and what
was pending stays pending. -/
theorem host_reaches_core {s : State} (hr : NoReset s.sched) :
    ∃ n t p es vs, runSteps n s = .next t ∧ CoreMoves t (s.afterHost p es vs) ∧ NoReset es ∧
      ∀ c, s.pending = some c → p = some c := by
  induction hs : s.sched generalizing s with
  | nil =>
    refine ⟨0, s, s.pending, [], [], rfl, ?_, nofun, fun _ h => h⟩
    rw [afterHost_nil, ← hs]
    exact .noEvent hs
  | cons e es ih =>
    rw [hs] at hr
    obtain ⟨⟨hdriven, hne⟩, htail⟩ := List.forall_mem_cons.mp hr
    match e with
    | .core =>
      refine ⟨0, s, s.pending, es, [], rfl, ?_, htail, fun _ h => h⟩
      rw [afterHost_nil]
      exact .given es hs
    | .port .readSr =>
      obtain ⟨n, t, p, es', vs, hn, hm, hr', hp⟩ :=
        ih (s := ({ s with sched := es } : State).deliver (.sr s.srView)) htail rfl
      refine ⟨n + 1, t, p, es', s.srView :: vs, (runSteps_of_step n (step_readSr hs)).trans hn, ?_, hr', hp⟩
      simpa [State.afterHost, State.deliver] using hm
    | .port .reset => exact absurd rfl hne
    | .unitOp u => exact absurd hdriven nofun
    | .submit c =>
      cases hpend : s.pending with
      | none =>
        obtain ⟨n, t, p, es', vs, hn, hm, hr', -⟩ := ih (s := { s with pending := some c, sched := es }) htail rfl
        exact ⟨n + 1, t, p, es', vs, (runSteps_of_step n (step_submit hs hpend)).trans hn, hm, hr', nofun⟩
      | some c' =>
        refine ⟨0, s, some c', s.sched, [], rfl, ?_, hs ▸ hr, fun _ h => h⟩
        rw [← hpend, afterHost_nil]
        exact .waiting c c' es hs hpend

/-- What the host does has no part in how an accepted command is answered; the SR values come before the response. -/
theorem State.Answering.afterHost {s : State} {out : List PortOut} {x : Context × Response} {m : Nat}
    (h : s.Answering out x (m + 1)) (p : Option HostCmd) (es : List Event) (vs : List Byte) :
    (s.afterHost p es vs).Answering (out ++ vs.map .sr) x (m + 1) := by
  obtain ⟨ho, b, n, hn, hround, hx⟩ := h
  exact ⟨congrArg (· ++ vs.map PortOut.sr) ho, b, n, hn, { hround with }, hx⟩

/-- An accepted command is run to its answer whatever the host does but reset, by induction on the rounds to go. -/
theorem State.Answering.runUnderHost {s : State} {out : List PortOut} {x : Context × Response} {m : Nat}
    (hr : NoReset s.sched) (h : s.Answering out x m) :
    ∃ n t, ∃ vs : List Byte, runSteps n s = .next t ∧ t.Answering (out ++ vs.map .sr) x 0 ∧ t.rom = s.rom := by
  induction m generalizing s out with
  | zero => exact ⟨0, s, [], rfl, by simpa using h, rfl⟩
  | succ m ih =>
    obtain ⟨n, t, p, es, vs, hn, hm, hes, -⟩ := host_reaches_core hr
    obtain ⟨u, hu, hans, hurom, -, husched⟩ := (h.afterHost p es vs).step hm
    obtain ⟨n', t', vs', hn', hdone, htrom⟩ := ih (husched ▸ hes) hans
    refine ⟨n + (n' + 1), t', vs ++ vs', ?_, ?_, htrom.trans hurom⟩
    · exact (runSteps_add _ hn).trans ((runSteps_of_step n' hu).trans hn')
    · rwa [List.map_append, ← List.append_assoc]

/-- Settles O53: the host reaches the core's turn with the command still pending, and from its ACCEPT step on the answer
comes whatever the host does. -/
theorem everyHostGetsExecsAnswer : Obligations.EveryHostGetsExecsAnswer := by
  intro s c hb hp hc hr
  obtain ⟨n, t, p, es, vs, hn, hm, hes, hkept⟩ := host_reaches_core hr
  obtain ⟨u, hu, hans, hurom, -, husched⟩ := step_accept_answering hm hb (hkept c hp) hc
  obtain ⟨n', t', vs', hn', ⟨htb, htctx, htout⟩, htrom⟩ := hans.runUnderHost (husched ▸ hes)
  refine ⟨n + (n' + 1), t', vs ++ vs', ?_, htb, htrom.trans hurom, htctx, ?_⟩
  · exact (runSteps_add _ hn).trans ((runSteps_of_step n' hu).trans hn')
  · rw [htout, List.map_append, ← List.append_assoc]
    rfl

/-! ### The same block under the same key (R183) -/

/-- Only a SETKEY that succeeds changes the context (R172, R185). -/
theorem transact_context {rom : Memory} {ctx : Context} {c : HostCmd} (h : isGoodSetkey c = false) :
    (transact rom ctx c).1 = ctx := by
  unfold transact
  split
  · next hop =>
    have hlen : c.data.length ≠ 10 := by simpa [isGoodSetkey, hop] using h
    rw [dif_neg hlen]
  split
  · rfl
  split
  · rfl
  · rfl

theorem transactAll_context {rom : Memory} {ctx : Context} {cs : List HostCmd}
    (h : ∀ c ∈ cs, isGoodSetkey c = false) : (transactAll rom ctx cs).1 = ctx := by
  induction cs with
  | nil => rfl
  | cons c cs ih =>
    obtain ⟨hc, hcs⟩ := List.forall_mem_cons.mp h
    rw [transactAll, transact_context hc]
    exact ih hcs

/-- Each command of a sequence has one response (R184). -/
theorem transactAll_length (rom : Memory) (ctx : Context) (cs : List HostCmd) :
    (transactAll rom ctx cs).2.length = cs.length := by
  induction cs generalizing ctx with
  | nil => rfl
  | cons c cs ih => exact congrArg (· + 1) (ih _)

theorem transactAll_append_responses (rom : Memory) (ctx : Context) (cs ds : List HostCmd) :
    (transactAll rom ctx (cs ++ ds)).2 =
      (transactAll rom ctx cs).2 ++ (transactAll rom (transactAll rom ctx cs).1 ds).2 := by
  induction cs generalizing ctx with
  | nil => rfl
  | cons c cs ih => exact congrArg (_ :: ·) (ih _)

/-- Settles O55: none of the commands changes the context, so Exec answers the last as the first. -/
theorem sameBlockSameAnswer : Obligations.SameBlockSameAnswer := by
  intro c cs s hb hp hs hop hc hcs
  have hblock : isGoodSetkey c = false := by
    obtain h | h := hop <;> simp [isGoodSetkey, h]
  have hfirst : (transactAll s.rom s.context (c :: cs)).1 = s.context :=
    transactAll_context (List.forall_mem_cons.mpr ⟨hblock, fun c' h => (hcs c' h).2⟩)
  have hagree : ∀ c' ∈ c :: cs ++ [c], c'.agrees = true :=
    List.forall_mem_append.mpr
      ⟨List.forall_mem_cons.mpr ⟨hc, fun c' h => (hcs c' h).1⟩, List.forall_mem_singleton.mpr hc⟩
  obtain ⟨n, t, hn, htb, -, hts, -, -, htout⟩ := commandStreamRefinesExec _ s hb hp hs hagree
  refine ⟨n, t, (transact s.rom s.context c).2, (transactAll s.rom (transact s.rom s.context c).1 cs).2, hn, htb, hts,
    transactAll_length _ _ _, ?_⟩
  rw [htout, transactAll_append_responses, hfirst]
  rfl

end Sys2Proof.Machine
end

section
/-! SUPPORT. The statements about command errors (spec/60_exceptions.md): SETKEY's size check, that an error writes no
state, and the order of the checks. -/

namespace Sys2Proof.Machine

/-! ### SETKEY's size check (R201) -/

theorem loadKey_of_length (s : State) {d : List Byte} (h : d.length = 10) :
    s.loadKey d = ({ s with key := ⟨d.toArray, h⟩, kv := true } : State).respond .ok [] :=
  dif_pos h

/-- Settles O9: a key of ten bytes is answered by OK, which is not the error's code. -/
theorem invalidKeySizeExactly : Obligations.InvalidKeySizeExactly := by
  intro s d
  refine ⟨fun hd => congrArg Host.Outcome.next (loadKey_of_length_ne s hd), fun hd => ?_⟩
  have hok : exec (.setkey d) s = .next _ := congrArg Host.Outcome.next (loadKey_of_length s hd)
  refine ⟨fun herr => ?_, _, hok, rfl⟩
  have hbox := congrArg State.outbox (Host.Outcome.next.inj (hok.symm.trans herr))
  simp [Status.code] at hbox

/-! ### An error writes no state (R203) -/

/-- An instruction that completes raises a command error, or delivers nothing, a value of SR, or OK alone. -/
theorem exec_raises_or_delivers {i : Instr} {s t : State} (h : exec i s = .next t) :
    (∃ e, t = s.raiseError e) ∨ t.outbox = s.outbox ∨ (∃ v, t.outbox = s.outbox ++ [.sr v]) ∨
      t.outbox = s.outbox ++ [.response ⟨Status.ok.code, []⟩] := by
  obtain ⟨d, -, rfl⟩ | ⟨dir, d, -, rfl⟩ | rfl | ⟨b, c, -, -, rfl⟩ | ⟨b, c, -, -, rfl⟩ | ⟨u, rfl⟩ | ⟨-, rfl⟩ |
    ⟨-, rfl⟩ := exec_next_cases h
  · obtain ⟨_, hload⟩ | ⟨_, hload⟩ := loadKey_cases s d
    · exact .inr (.inr (.inr (by rw [hload]; rfl)))
    · exact .inl ⟨_, hload⟩
  · obtain ⟨_, hacc⟩ | ⟨_, _, hacc⟩ | ⟨_, _, hacc⟩ := acceptOperation_cases s dir d
    · exact .inl ⟨_, hacc⟩
    · exact .inr (.inl (by rw [hacc]; rfl))
    · exact .inl ⟨_, hacc⟩
  · exact .inl ⟨_, rfl⟩
  · exact .inr (.inl rfl)
  · exact .inr (.inl rfl)
  · exact .inr (.inl rfl)
  · exact .inr (.inr (.inl ⟨_, rfl⟩))
  · exact .inr (.inl rfl)

/-- Settles O12: what delivers a response with another status than OK is `raiseError`, which writes the outbox alone. -/
theorem errorsWriteNoState : Obligations.ErrorsWriteNoState := by
  intro i s t st o h hout hst
  obtain ⟨e, rfl⟩ | hbox | ⟨v, hbox⟩ | hbox := exec_raises_or_delivers h
  · obtain ⟨rfl, rfl⟩ : e.code = st ∧ [] = o := by simpa using hout
    exact ⟨rfl, raiseError_eq s e⟩
  · simp [hbox] at hout
  · simp [hbox] at hout
  · obtain ⟨rfl, -⟩ : Status.ok.code = st ∧ [] = o := by simpa [hbox] using hout
    exact absurd rfl hst

/-! ### The order of the checks (R206) -/

/-- A size check on LEN is one on the bytes delivered (R71). -/
theorem length_ne_of_len_ne {c : HostCmd} (hc : c.agrees = true) {n : Byte} (hn : c.len ≠ n) :
    c.data.length ≠ n.toNat := by
  have hlen : c.data.length = c.len.toNat := of_decide_eq_true hc
  exact hlen ▸ fun h => hn (BitVec.eq_of_toNat_eq h)

theorem accept_of_setkey (s : State) (d : List Byte) : s.accept 0x01#8 d = s.loadKey d := rfl

/-- OP 0x02 and 0x03 make the checks of one ACCEPT, each in its direction (R174, R177). -/
theorem accept_of_block (s : State) {op : Byte} (d : List Byte) (hop : op ∈ [0x02#8, 0x03#8]) :
    ∃ dir, s.accept op d = s.acceptOperation dir d := by
  obtain rfl | rfl : op = 0x02#8 ∨ op = 0x03#8 := by simpa using hop
  · exact ⟨.encrypt, rfl⟩
  · exact ⟨.decrypt, rfl⟩

/-- Settles O13: OP selects the checks, and each of them is the first that applies under what its clause assumes. -/
theorem errorPriority : Obligations.ErrorPriority := by
  intro c s hc
  refine ⟨_, decode_hostCmd hc, ?_⟩
  rw [exec_decodeOp_eq]
  refine ⟨fun hop => ?_, fun hop hk => ?_, fun hop hk hn => ?_, fun hop hn => ?_⟩
  · obtain ⟨h1, h2, h3⟩ : c.op ≠ 0x01#8 ∧ c.op ≠ 0x02#8 ∧ c.op ≠ 0x03#8 := by simpa using hop
    rw [accept_of_reserved s c.data h1 h2 h3]
    rfl
  · obtain ⟨dir, hacc⟩ := accept_of_block s c.data hop
    rw [hacc, acceptOperation_of_noKey hk]
    rfl
  · obtain ⟨dir, hacc⟩ := accept_of_block s c.data hop
    rw [hacc, acceptOperation_of_length_ne hk dir (length_ne_of_len_ne hc hn)]
    rfl
  · rw [hop, accept_of_setkey, loadKey_of_length_ne s (length_ne_of_len_ne hc hn)]
    rfl

end Sys2Proof.Machine
end

section
/-! SUPPORT. The statements about RESET (spec/70_reset_and_hazards.md): what it clears and keeps, the operation it aborts,
and the reset state's invariant. -/

namespace Sys2Proof.Machine

/-! ### What RESET leaves (R230, R231) -/

/-- What a RESET leaves is a function of the ROM, the schedule and the outbox alone. -/
theorem afterReset_congr {s s' : State} (hrom : s'.rom = s.rom) (hsched : s'.sched = s.sched)
    (hout : s'.outbox = s.outbox) : s'.afterReset = s.afterReset := by
  simp only [State.afterReset, hrom, hsched, hout]

@[simp] theorem srView_afterReset (s : State) : s.afterReset.srView = 0x00#8 := by
  simp [State.srView]

/-- Settles O15: what is left is the reset state but for what is kept, and with BUSY = 0 a round rule faults. -/
theorem resetClears : Obligations.ResetClears := fun s =>
  ⟨s.afterReset, rfl, afterReset_busy s, afterReset_kv s, afterReset_pending s, afterReset_rom s, afterReset_outbox s,
    afterReset_sched s, srView_afterReset s,
    fun _ hrom hsched hout => congrArg Host.Outcome.next (afterReset_congr hrom hsched hout),
    fun i hi => ((roundAndCursorReadsFault s.afterReset).1 i hi).1 (afterReset_busy s)⟩

/-! ### RESET as a step (R231, R233) -/

/-- RESET as a step, whatever runs or is pending (R230). -/
theorem step_reset {s : State} {es : List Event} (hs : s.sched = .port .reset :: es) :
    step s = .next ({ s with sched := es } : State).afterReset :=
  (stepRunsDecodedInstruction s .reset).1 .reset es hs rfl

/-- Settles O41: the step leaves KV = 0, and then NoKey is the first check either command fails. -/
theorem resetAbortsOperation : Obligations.ResetAbortsOperation := by
  intro s es hs
  have hkey : ({ s with sched := es } : State).afterReset.kv = false := afterReset_kv _
  refine ⟨_, step_reset hs, rfl, rfl, rfl, rfl, fun d => ⟨?_, ?_⟩⟩
  · exact (blockErrorsExactly _ d (.encrypt d) (.inl rfl)).1 hkey
  · exact (blockErrorsExactly _ d (.decrypt d) (.inr rfl)).1 hkey

/-! ### The reset state (R230, R232) -/

/-- Settles O44: the reset core is idle, and nothing is pending or on its schedule. -/
theorem resetMeetsInvariant : Obligations.ResetMeetsInvariant :=
  ⟨inv_of_idle reset_busy nofun nofun, reset_rom_wf⟩

end Sys2Proof.Machine
end

section
/-! SUPPORT. The two directions of the encoding (spec/30_encoding.md): decode of encode and encode of decode, format by
format, and the worked vectors. A command decodes by OP alone (R76), so what holds of an OP with no data bytes is carried
over to every list of them. -/

namespace Sys2Proof.Machine

/-! ### Command decode by OP alone (R76) -/

/-- The instruction of the same row with other data bytes; an instruction that is no command has none. -/
def withData (d : List Byte) : Instr → Instr
  | .setkey _ => .setkey d
  | .encrypt _ => .encrypt d
  | .decrypt _ => .decrypt d
  | .reserved00 _ => .reserved00 d
  | .reserved04 lo _ => .reserved04 lo d
  | .reserved08 lo _ => .reserved08 lo d
  | .reserved10 lo _ => .reserved10 lo d
  | .reserved20 lo _ => .reserved20 lo d
  | .reserved40 lo _ => .reserved40 lo d
  | .reserved80 lo _ => .reserved80 lo d
  | i => i

/-- The data bytes decide nothing but themselves. -/
theorem decodeOp_eq_withData (op : Byte) (d : List Byte) : decodeOp op d = withData d (decodeOp op []) := by
  simp only [decodeOp, apply_ite (withData d)]
  rfl

/-- A row with free bits decodes with any data bytes when it does with none. -/
theorem decodeOp_row {k : Nat} {op : BitVec k → Byte} {row : BitVec k → List Byte → Instr}
    (hnone : ∀ lo, decodeOp (op lo) [] = row lo []) (hdata : ∀ lo d, withData d (row lo []) = row lo d)
    (lo : BitVec k) (d : List Byte) : decodeOp (op lo) d = row lo d := by
  rw [decodeOp_eq_withData, hnone, hdata]

theorem decodeOp_reserved04 (lo : BitVec 2) (d : List Byte) : decodeOp (0b000001#6 ++ lo) d = .reserved04 lo d :=
  decodeOp_row (op := (0b000001#6 ++ ·)) (by decide) (fun _ _ => rfl) lo d

theorem decodeOp_reserved08 (lo : BitVec 3) (d : List Byte) : decodeOp (0b00001#5 ++ lo) d = .reserved08 lo d :=
  decodeOp_row (op := (0b00001#5 ++ ·)) (by decide) (fun _ _ => rfl) lo d

theorem decodeOp_reserved10 (lo : BitVec 4) (d : List Byte) : decodeOp (0b0001#4 ++ lo) d = .reserved10 lo d :=
  decodeOp_row (op := (0b0001#4 ++ ·)) (by decide) (fun _ _ => rfl) lo d

theorem decodeOp_reserved20 (lo : BitVec 5) (d : List Byte) : decodeOp (0b001#3 ++ lo) d = .reserved20 lo d :=
  decodeOp_row (op := (0b001#3 ++ ·)) (by decide) (fun _ _ => rfl) lo d

theorem decodeOp_reserved40 (lo : BitVec 6) (d : List Byte) : decodeOp (0b01#2 ++ lo) d = .reserved40 lo d :=
  decodeOp_row (op := (0b01#2 ++ ·)) (by decide) (fun _ _ => rfl) lo d

theorem decodeOp_reserved80 (lo : BitVec 7) (d : List Byte) : decodeOp (0b1#1 ++ lo) d = .reserved80 lo d :=
  decodeOp_row (op := (0b1#1 ++ ·)) (by decide) (fun _ _ => rfl) lo d

/-! ### The command word (R71, R81) -/

theorem dataFits_iff {d : List Byte} : dataFits d = true ↔ d.length ≤ 255 := decide_eq_true_iff

theorem cursorLegal_iff {c : BitVec 4} : cursorLegal c = true ↔ c.toNat < 10 := decide_eq_true_iff

/-- A command of at most 255 data bytes decodes by the OP it was encoded with: LEN holds their number. -/
theorem decode_encodeCmd (op : Byte) {d : List Byte} (h : dataFits d = true) :
    decode (encodeCmd op d) = .ok (decodeOp op d) := by
  have hlen : d.length < 2 ^ 8 := Nat.lt_succ_of_le (dataFits_iff.mp h)
  have hagrees : (⟨byteConcat (BitVec.ofNat 8 d.length) op, d⟩ : HostCmd).agrees = true := by
    have hop : op.toNat < 2 ^ 8 := op.isLt
    simp only [agrees_iff, byteConcat_toNat, BitVec.toNat_ofNat, Nat.mod_eq_of_lt hlen]
    omega
  calc decode (encodeCmd op d)
      = .ok (decodeOp (loByte (byteConcat (BitVec.ofNat 8 d.length) op)) d) := decode_hostCmd hagrees
    _ = .ok (decodeOp op d) := by rw [loByte_concat]

/-- A command whose LEN and bytes agree is the encoding of its OP with its bytes. -/
theorem encodeCmd_of_agrees {c : HostCmd} (h : c.agrees = true) : encodeCmd c.op c.data = .hostCmd c := by
  have hlen : BitVec.ofNat 8 c.data.length = c.len := by
    rw [of_decide_eq_true h, BitVec.ofNat_toNat, BitVec.setWidth_eq]
  have hword : byteConcat c.len c.op = c.cmd := concat_bytes c.cmd
  rw [encodeCmd, hlen, hword]

theorem dataFits_of_agrees {c : HostCmd} (h : c.agrees = true) : dataFits c.data = true := by
  have hlen : c.data.length = c.len.toNat := of_decide_eq_true h
  have hbyte : c.len.toNat < 2 ^ 8 := c.len.isLt
  exact dataFits_iff.mpr (by omega)

/-! ### Decode of encode -/

/-- Settles O2: a command decodes by the OP of its row, which gives back the row and its free bits, and the selects of
the other formats are read off their tables. -/
theorem decodeOfEncodeIsIdentity : Obligations.DecodeOfEncodeIsIdentity := by
  intro i h
  cases i with
  | setkey d => exact decode_encodeCmd 0x01#8 h
  | encrypt d => exact decode_encodeCmd 0x02#8 h
  | decrypt d => exact decode_encodeCmd 0x03#8 h
  | reserved00 d => exact decode_encodeCmd 0x00#8 h
  | reserved04 lo d => rw [encode, decode_encodeCmd _ h, decodeOp_reserved04]
  | reserved08 lo d => rw [encode, decode_encodeCmd _ h, decodeOp_reserved08]
  | reserved10 lo d => rw [encode, decode_encodeCmd _ h, decodeOp_reserved10]
  | reserved20 lo d => rw [encode, decode_encodeCmd _ h, decodeOp_reserved20]
  | reserved40 lo d => rw [encode, decode_encodeCmd _ h, decodeOp_reserved40]
  | reserved80 lo d => rw [encode, decode_encodeCmd _ h, decodeOp_reserved80]
  | ruleA => exact decode_roundOp 0b00#2
  | ruleB => exact decode_roundOp 0b01#2
  | ruleAInv => exact decode_roundOp 0b10#2
  | ruleBInv => exact decode_roundOp 0b11#2
  | g w c => exact decode_gOp 0#1 w (cursorLegal_iff.mp h)
  | gInv w c => exact decode_gOp 1#1 w (cursorLegal_iff.mp h)
  | romRead a => exact decode_romRd a
  | readSr => rfl
  | reset => rfl

/-! ### Encode of decode -/

/-- The OP of a command can be read off its encoding. -/
theorem encodeCmd_op_inj {op op' : Byte} {d d' : List Byte} (h : encodeCmd op d = encodeCmd op' d') : op = op' := by
  simp only [encodeCmd, Encoded.hostCmd.injEq, HostCmd.mk.injEq] at h
  obtain ⟨hcmd, _⟩ := h
  simpa using congrArg loByte hcmd

/-- With other data bytes an instruction keeps its OP. -/
theorem encode_withData {i : Instr} {op : Byte} {d : List Byte} (h : encode i = encodeCmd op d) (d' : List Byte) :
    encode (withData d' i) = encodeCmd op d' := by
  cases i with
  | setkey | encrypt | decrypt | reserved00 | reserved04 | reserved08 | reserved10 | reserved20 | reserved40
  | reserved80 => exact congrArg (encodeCmd · d') (encodeCmd_op_inj h)
  | ruleA | ruleB | ruleAInv | ruleBInv | g | gInv | romRead | readSr | reset => cases h

/-- No bit of OP is dropped: the row it decodes to and the free bits make it up again. -/
theorem encode_decodeOp (op : Byte) (d : List Byte) : encode (decodeOp op d) = encodeCmd op d := by
  have hnone : ∀ op, encode (decodeOp op []) = encodeCmd op [] := by decide
  rw [decodeOp_eq_withData, encode_withData (hnone op)]

/-- A command decodes to an instruction with its data bytes, so it is well formed when they fit LEN. -/
theorem wellFormed_decodeOp (op : Byte) (d : List Byte) : (decodeOp op d).wellFormed = dataFits d := by
  simp only [decodeOp, apply_ite Instr.wellFormed]
  simp only [Instr.wellFormed, ite_self]

theorem encode_decodeRoundOp : ∀ mop, encode (decodeRoundOp mop) = .roundOp mop := by decide

theorem wellFormed_decodeRoundOp : ∀ mop, (decodeRoundOp mop).wellFormed = true := by decide

/-- Only a command whose LEN and bytes agree decodes (R71). -/
theorem decode_hostCmd_ok {c : HostCmd} {i : Instr} (h : decode (.hostCmd c) = .ok i) :
    c.agrees = true ∧ i = decodeOp c.op c.data := by
  by_cases ha : c.agrees = true
  · rw [decode_hostCmd ha] at h
    cases h
    exact ⟨ha, rfl⟩
  · simp [decode, decodeHostCmd, ha] at h

/-- Only a G operation with a legal cursor decodes (R120, R121). -/
theorem decode_gOp_ok {gd : BitVec 1} {w : Word} {c : BitVec 4} {i : Instr}
    (h : decode (.unitOp (.gOp gd w c)) = .ok i) :
    cursorLegal c = true ∧ i = if gd = 0#1 then .g w c else .gInv w c := by
  by_cases hc : cursorLegal c = true
  · rw [decode_gOp gd w (cursorLegal_iff.mp hc)] at h
    cases h
    exact ⟨hc, rfl⟩
  · simp [decode, decodeUnitOp, hc] at h

/-- Settles O3: a command by its OP and the agreement of LEN, a round select by its four values, a G operation by its
select. -/
theorem encodeOfDecodeIsIdentity : Obligations.EncodeOfDecodeIsIdentity := by
  intro e i h
  cases e with
  | hostCmd c =>
    obtain ⟨ha, rfl⟩ := decode_hostCmd_ok h
    exact ⟨(encode_decodeOp _ _).trans (encodeCmd_of_agrees ha), (wellFormed_decodeOp _ _).trans (dataFits_of_agrees ha)⟩
  | port p =>
    cases p with
    | readSr => cases h; exact ⟨rfl, rfl⟩
    | reset => cases h; exact ⟨rfl, rfl⟩
  | roundOp mop =>
    cases h
    exact ⟨encode_decodeRoundOp mop, wellFormed_decodeRoundOp mop⟩
  | unitOp u =>
    cases u with
    | gOp gd w c =>
      obtain ⟨hc, rfl⟩ := decode_gOp_ok h
      obtain rfl | rfl := BitVec.eq_zero_or_eq_one gd
      · exact ⟨rfl, hc⟩
      · exact ⟨rfl, hc⟩
    | romRd a =>
      cases h
      exact ⟨rfl, rfl⟩

/-! ### The worked vectors (spec/95_test_vectors.md 1.1, 1.2) -/

theorem decBlock_of_encBlock {rom : Memory} {k : Key} {p c : BlockBytes} (h : encBlock rom k p = c) :
    decBlock rom k c = p :=
  h ▸ (roundTrip rom k p).1

/-- Settles O49: the two encryptions are computed, and the decryption undoes the first of them. -/
theorem sourceVectorsHold : Obligations.SourceVectorsHold := by
  refine ⟨?primary, decBlock_of_encBlock ?primary, ?zeroKey⟩
  case primary => decide +kernel
  case zeroKey => decide +kernel

end Sys2Proof.Machine
end
